-- ==== Sys2Proof/Word.lean ====
section
/-! DEFINITION. The word types of the E20 core (00_scope.md R8; 10_state.md R21; 20_memory.md R40). -/

namespace Sys2Proof

/-- A Word: 16 bits, "the universal unit of memory, register content, and raw instruction encoding" (R5, R8). The pc has
the same width (R25, decision D1; log 3). -/
abbrev Word := BitVec 16

/-- The index of a general register, a 3-bit field of an instruction (R21). -/
abbrev RegIdx := BitVec 3

/-- A memory index as it leaves the core on an address port: 13 bits (R40, R161, R169). -/
abbrev MemIdx := BitVec 13

/-- The signed immediate field of addi, slti, lw, sw and jeq (R69). -/
abbrev Imm7 := BitVec 7

/-- The unsigned immediate field of j and jal (R69). -/
abbrev Imm13 := BitVec 13

end Sys2Proof
end

