-- ==== Sys2Proof/Assembly.lean ====
section
/-! DEFINITION. The assembler notation of 30_encoding.md R77 and the abbreviations of R78, as plain data: register numbers and
immediates as they are written, before any check. -/

namespace Sys2Proof

/-- A line of the notation. The operands stand in the order in which R77 writes them (destination first). The operand order
is the spec's own choice (decision D14; log 16), a notation that no behaviour depends on. -/
inductive AsmLine where
  | add (d a b : Nat)
  | sub (d a b : Nat)
  | or (d a b : Nat)
  | and (d a b : Nat)
  | slt (d a b : Nat)
  | jr (a : Nat)
  | addi (d a : Nat) (imm : Int)
  | slti (d a : Nat) (imm : Int)
  /-- `lw $d, imm($a)` -/
  | lw (d : Nat) (imm : Int) (a : Nat)
  /-- `sw $s, imm($a)` -/
  | sw (s : Nat) (imm : Int) (a : Nat)
  /-- `jeq $a, $b, off`: the offset as encoded, not a target address (R77). -/
  | jeq (a b : Nat) (off : Int)
  | j (t : Nat)
  | jal (t : Nat)
  /-- `halt` at address `a` means `j a` (R78). -/
  | halt
  /-- `nop` means `add $0, $0, $0` (R78). -/
  | nop
  /-- `.fill v`: the data Word `v` (R78). -/
  | fill (v : Nat)
  deriving DecidableEq, Repr

end Sys2Proof
end

