-- ==== Sys2Proof/Config.lean ====
section
/-! DEFINITION. The parameters of the E20 core (00_scope.md R5), each with the one value the spec gives it. The one open parameter,
`MEM_INIT` (R6, D10), is an argument of `State.start`, not a constant. The spec leaves no value of a step open (R102), so
there is no free value here. -/

namespace Sys2Proof.Config

/-- `XLEN`: width in bits of a Word (R5). -/
abbrev xlen : Nat := 16

/-- `ILEN`: width in bits of every instruction (R5, R60). -/
abbrev ilen : Nat := 16

/-- `NREGS`: number of general registers (R5, R21). -/
abbrev nregs : Nat := 8

/-- `REGIDX_BITS`: width of a register-index field (R5). -/
abbrev regIdxBits : Nat := 3

/-- `MEM_WORDS`: number of Words of memory (R5, R31). -/
abbrev memWords : Nat := 8192

/-- `ADDR_BITS`: width of a memory index (R5, R40). -/
abbrev addrBits : Nat := 13

/-- `IMM7_BITS` (R5, R69). -/
abbrev imm7Bits : Nat := 7

/-- `IMM13_BITS` (R5, R69). -/
abbrev imm13Bits : Nat := 13

/-- `OPCODE_BITS` (R5, R63). -/
abbrev opcodeBits : Nat := 3

/-- `FUNC_BITS` (R5, R68). -/
abbrev funcBits : Nat := 4

/-- `LINK_REG`: the register jal writes (R5, R24). -/
abbrev linkReg : RegIdx := 7#3

/-- `RESET_PC`: the pc at the start of a run (R5, R35, R211). -/
abbrev resetPc : Word := 0#16

/-- `PC_BITS`: width in bits of the pc (R5). UNVERIFIED: the spec's own decision D1, unsafe; log 3. -/
abbrev pcBits : Nat := 16

/-- What a memory index the loader did not declare holds: "zero-initialized at load" (R6, R35). -/
abbrev undeclaredWord : Word := 0#16

end Sys2Proof.Config
end

