-- ==== Sys2Proof/Syntax.lean ====
section
/-! DEFINITION. The instructions of the E20 core, one constructor per row of spec/opcode_table.json (30_encoding.md R67, R68,
R72, R81). The operands are the fields of the row, in the order of the word's bits, so every term of the type is one the
encoding admits. -/

namespace Sys2Proof

/-- An instruction. jr carries no operand for its ignored bits 9:4: all 64 words are the same jr (R71; log 7). A
reserved-func word carries its ignored bits 12:4, which no rule reads (R146; log 8). -/
inductive Instr where
  /-- `add $rD, $rA, $rB` (R111). -/
  | add (rA rB rD : RegIdx)
  /-- `sub $rD, $rA, $rB` (R112). -/
  | sub (rA rB rD : RegIdx)
  /-- `or $rD, $rA, $rB` (R113). -/
  | or (rA rB rD : RegIdx)
  /-- `and $rD, $rA, $rB` (R114). -/
  | and (rA rB rD : RegIdx)
  /-- `slt $rD, $rA, $rB`, unsigned (R115). -/
  | slt (rA rB rD : RegIdx)
  /-- `jr $rA` (R141). -/
  | jr (rA : RegIdx)
  /-- `addi $rB, $rA, imm`: `rB` is the destination (R121). -/
  | addi (rA rB : RegIdx) (imm7 : Imm7)
  /-- `j imm13`; the halt convention when the target is its own pc (R143, R145). -/
  | j (imm13 : Imm13)
  /-- `jal imm13` (R144). -/
  | jal (imm13 : Imm13)
  /-- `lw $rB, imm($rA)`: `rB` is the destination (R131). -/
  | lw (rA rB : RegIdx) (imm7 : Imm7)
  /-- `sw $rB, imm($rA)`: `rB` is the register stored (R132). -/
  | sw (rA rB : RegIdx) (imm7 : Imm7)
  /-- `jeq $rA, $rB, off` (R142). -/
  | jeq (rA rB : RegIdx) (imm7 : Imm7)
  /-- `slti $rB, $rA, imm`, signed: `rB` is the destination (R122). -/
  | slti (rA rB : RegIdx) (imm7 : Imm7)
  /-- Reserved func 5 (R72, R146). -/
  | reserved5 (ignored : BitVec 9)
  /-- Reserved func 6 (R72, R146). -/
  | reserved6 (ignored : BitVec 9)
  /-- Reserved func 7 (R72, R146). -/
  | reserved7 (ignored : BitVec 9)
  /-- Reserved func 9 (R72, R146). -/
  | reserved9 (ignored : BitVec 9)
  /-- Reserved func 10 (R72, R146). -/
  | reserved10 (ignored : BitVec 9)
  /-- Reserved func 11 (R72, R146). -/
  | reserved11 (ignored : BitVec 9)
  /-- Reserved func 12 (R72, R146). -/
  | reserved12 (ignored : BitVec 9)
  /-- Reserved func 13 (R72, R146). -/
  | reserved13 (ignored : BitVec 9)
  /-- Reserved func 14 (R72, R146). -/
  | reserved14 (ignored : BitVec 9)
  /-- Reserved func 15 (R72, R146). -/
  | reserved15 (ignored : BitVec 9)
  deriving DecidableEq, Repr

end Sys2Proof
end

