-- ==== Sys2Proof/WellFormed.lean ====
section
/-! DEFINITION. Well-formedness. The fields of `Instr` have the widths of the encoding, so their ranges need no check; what is
left to check is whether a term is one of the 13 defined instructions (30_encoding.md R72, R73). A line of the notation
(R77) is unchecked data, and each of its operands has a range. -/

namespace Sys2Proof

/-- A well-formed instruction is one of the 13 the spec defines: "the only encodings without a defined instruction" are the
reserved-func words (R72). No meaning depends on this check: a reserved word has its own rule, R146. -/
def Instr.wellFormed : Instr → Bool
  | .add _ _ _ => true
  | .sub _ _ _ => true
  | .or _ _ _ => true
  | .and _ _ _ => true
  | .slt _ _ _ => true
  | .jr _ => true
  | .addi _ _ _ => true
  | .j _ => true
  | .jal _ => true
  | .lw _ _ _ => true
  | .sw _ _ _ => true
  | .jeq _ _ _ => true
  | .slti _ _ _ => true
  | .reserved5 _ => false
  | .reserved6 _ => false
  | .reserved7 _ => false
  | .reserved9 _ => false
  | .reserved10 _ => false
  | .reserved11 _ => false
  | .reserved12 _ => false
  | .reserved13 _ => false
  | .reserved14 _ => false
  | .reserved15 _ => false

/-- A register is `$0` to `$7` (R21). -/
def AsmLine.regOk (n : Nat) : Bool := decide (n < Config.nregs)

/-- A 7-bit immediate is -64 to 63 (R69, R77). -/
def AsmLine.immOk (i : Int) : Bool := decide (-64 ≤ i ∧ i ≤ 63)

/-- A jump target is 0 to 8191 (R69, R77). -/
def AsmLine.targetOk (t : Nat) : Bool := decide (t < Config.memWords)

/-- The range checks of R77 and R78 for the line at address `addr`. -/
def AsmLine.wellFormed (addr : Nat) : AsmLine → Bool
  | .add d a b => regOk d && regOk a && regOk b
  | .sub d a b => regOk d && regOk a && regOk b
  | .or d a b => regOk d && regOk a && regOk b
  | .and d a b => regOk d && regOk a && regOk b
  | .slt d a b => regOk d && regOk a && regOk b
  | .jr a => regOk a
  | .addi d a imm => regOk d && regOk a && immOk imm
  | .slti d a imm => regOk d && regOk a && immOk imm
  | .lw d imm a => regOk d && immOk imm && regOk a
  | .sw s imm a => regOk s && immOk imm && regOk a
  | .jeq a b off => regOk a && regOk b && immOk off
  | .j t => targetOk t
  | .jal t => targetOk t
  | .halt => targetOk addr
  | .nop => true
  | .fill v => decide (v < 2 ^ Config.xlen)

end Sys2Proof
end

