-- ==== Sys2Proof/Decode.lean ====
section
/-! DEFINITION. The decoder and the encoder (30_encoding.md; 40_fetch_decode_step.md R91 to R94). The decoder is total on Words
(R73): a reserved-func word decodes to a constructor that names its func, never to a neighbour. -/

namespace Sys2Proof

/-! ## The leaf functions -/

/-- The bit-field extractor: the unsigned field `[pos, pos + width)` of a Word, bit 0 the least significant (R61, R7). Outside
`pos + width ≤ 16` the spec gives it no value (U1), and here it has none: the caller proves the bound. -/
def extract (w : Word) (pos width : Nat) (_inWord : pos + width ≤ 16 := by decide) : BitVec width :=
  w.extractLsb' pos width

/-- A field put at its position in a Word, the inverse of `extract` (R80). -/
def place {n : Nat} (field : BitVec n) (pos : Nat) : Word := field.setWidth 16 <<< pos

/-- Sign extension of an `n`-bit field to a mathematical integer (R62). Its domain is `1 ≤ n ≤ 15` (U6). -/
def signExtend (n : Nat) (v : BitVec n) (_width : 1 ≤ n ∧ n ≤ 15 := by decide) : Int :=
  if v.getLsbD (n - 1) then (v.toNat : Int) - 2 ^ n else v.toNat

/-- `sext7`: the integer in -64 to 63 that a 7-bit field means (R9, R62). -/
def sext7 (v : Imm7) : Int := signExtend 7 v

/-- `sext_16`: the Word `sext7(v) mod 2^16` (R9). -/
def sext16 (v : Imm7) : Word := BitVec.ofInt 16 (sext7 v)

/-- `zext_16`: the Word whose low 13 bits are `v` and whose high bits are 0 (R9). -/
def zext16 (v : Imm13) : Word := v.setWidth 16

/-! ## Instruction words -/

/-- The instruction of a Word (R63 to R73, R91). Bits 9:4 of a jr are ignored (R71; decision D5, log 7). -/
def decode (w : Word) : Instr :=
  let rA : RegIdx := extract w 10 3
  let rB : RegIdx := extract w 7 3
  let rD : RegIdx := extract w 4 3
  let imm7 : Imm7 := extract w 0 7
  let imm13 : Imm13 := extract w 0 13
  let ignored : BitVec 9 := extract w 4 9
  match extract w 13 3 with
  | 0b000#3 =>
    match extract w 0 4 with
    | 0b0000#4 => .add rA rB rD
    | 0b0001#4 => .sub rA rB rD
    | 0b0010#4 => .or rA rB rD
    | 0b0011#4 => .and rA rB rD
    | 0b0100#4 => .slt rA rB rD
    | 0b0101#4 => .reserved5 ignored
    | 0b0110#4 => .reserved6 ignored
    | 0b0111#4 => .reserved7 ignored
    | 0b1000#4 => .jr rA
    | 0b1001#4 => .reserved9 ignored
    | 0b1010#4 => .reserved10 ignored
    | 0b1011#4 => .reserved11 ignored
    | 0b1100#4 => .reserved12 ignored
    | 0b1101#4 => .reserved13 ignored
    | 0b1110#4 => .reserved14 ignored
    | _ => .reserved15 ignored -- func 1111, the one value left
  | 0b001#3 => .addi rA rB imm7
  | 0b010#3 => .j imm13
  | 0b011#3 => .jal imm13
  | 0b100#3 => .lw rA rB imm7
  | 0b101#3 => .sw rA rB imm7
  | 0b110#3 => .jeq rA rB imm7
  | 0b111#3 => .slti rA rB imm7

/-! ## The decoded-instruction bundle -/

/-- The 14 tags a decoded instruction can carry (R81). -/
inductive Tag where
  | add | sub | or | and | slt | jr | addi | j | jal | lw | sw | jeq | slti | reserved
  deriving DecidableEq, Repr

/-- What the decoder hands to the decode/execute mux: a transient value, no state (R32, R91, R162, R178). -/
structure Decoded where
  tag : Tag
  rA : RegIdx
  rB : RegIdx
  rD : RegIdx
  imm7 : Imm7
  imm13 : Imm13
  halt : Bool
  deriving DecidableEq, Repr

/-- The tag of a Word (R91). -/
def decodeTag (w : Word) : Tag :=
  match extract w 13 3 with
  | 0b000#3 =>
    match extract w 0 4 with
    | 0b0000#4 => .add
    | 0b0001#4 => .sub
    | 0b0010#4 => .or
    | 0b0011#4 => .and
    | 0b0100#4 => .slt
    | 0b1000#4 => .jr
    | _ => .reserved
  | 0b001#3 => .addi
  | 0b010#3 => .j
  | 0b011#3 => .jal
  | 0b100#3 => .lw
  | 0b101#3 => .sw
  | 0b110#3 => .jeq
  | 0b111#3 => .slti

/-- `Decode(w, pc)` of R91. The halt flag compares the full 16-bit pc (R92, R94; decision D3, log 3) and is for opcode `010`
alone (R93). -/
def decodeBundle (w pc : Word) : Decoded where
  tag := decodeTag w
  rA := extract w 10 3
  rB := extract w 7 3
  rD := extract w 4 3
  imm7 := extract w 0 7
  imm13 := extract w 0 13
  halt := extract w 13 3 == 0b010#3 && zext16 (extract w 0 13) == pc

/-! ## The encoder -/

/-- Format RRR (R64). -/
def formatRRR (rA rB rD : RegIdx) (func : BitVec 4) : Word :=
  place 0b000#3 13 ||| place rA 10 ||| place rB 7 ||| place rD 4 ||| place func 0

/-- Format RRI (R65). -/
def formatRRI (opcode : BitVec 3) (rA rB : RegIdx) (imm7 : Imm7) : Word :=
  place opcode 13 ||| place rA 10 ||| place rB 7 ||| place imm7 0

/-- Format J (R66). -/
def formatJ (opcode : BitVec 3) (imm13 : Imm13) : Word := place opcode 13 ||| place imm13 0

/-- A reserved-func word (R72): the ignored bits 12:4 and the func. -/
def formatReserved (ignored : BitVec 9) (func : BitVec 4) : Word :=
  place 0b000#3 13 ||| place ignored 4 ||| place func 0

/-- The Word of an instruction (R64 to R68). The unused fields of jr are written as 0 (R77). -/
def encode : Instr → Word
  | .add rA rB rD => formatRRR rA rB rD 0b0000#4
  | .sub rA rB rD => formatRRR rA rB rD 0b0001#4
  | .or rA rB rD => formatRRR rA rB rD 0b0010#4
  | .and rA rB rD => formatRRR rA rB rD 0b0011#4
  | .slt rA rB rD => formatRRR rA rB rD 0b0100#4
  | .jr rA => formatRRR rA 0#3 0#3 0b1000#4
  | .addi rA rB imm7 => formatRRI 0b001#3 rA rB imm7
  | .j imm13 => formatJ 0b010#3 imm13
  | .jal imm13 => formatJ 0b011#3 imm13
  | .lw rA rB imm7 => formatRRI 0b100#3 rA rB imm7
  | .sw rA rB imm7 => formatRRI 0b101#3 rA rB imm7
  | .jeq rA rB imm7 => formatRRI 0b110#3 rA rB imm7
  | .slti rA rB imm7 => formatRRI 0b111#3 rA rB imm7
  | .reserved5 ignored => formatReserved ignored 0b0101#4
  | .reserved6 ignored => formatReserved ignored 0b0110#4
  | .reserved7 ignored => formatReserved ignored 0b0111#4
  | .reserved9 ignored => formatReserved ignored 0b1001#4
  | .reserved10 ignored => formatReserved ignored 0b1010#4
  | .reserved11 ignored => formatReserved ignored 0b1011#4
  | .reserved12 ignored => formatReserved ignored 0b1100#4
  | .reserved13 ignored => formatReserved ignored 0b1101#4
  | .reserved14 ignored => formatReserved ignored 0b1110#4
  | .reserved15 ignored => formatReserved ignored 0b1111#4

/-! ## The opcode table -/

/-- A row of the opcode table: a Word `w` is the row's instruction when `w AND mask = pattern` (R82). -/
structure OpcodeRow where
  mnemonic : String
  mask : Word
  pattern : Word
  deriving DecidableEq, Repr

/-- The row of an instruction, from the tables of R82. -/
def Instr.row : Instr → OpcodeRow
  | .add _ _ _ => ⟨"add", 0xE00F#16, 0x0000#16⟩
  | .sub _ _ _ => ⟨"sub", 0xE00F#16, 0x0001#16⟩
  | .or _ _ _ => ⟨"or", 0xE00F#16, 0x0002#16⟩
  | .and _ _ _ => ⟨"and", 0xE00F#16, 0x0003#16⟩
  | .slt _ _ _ => ⟨"slt", 0xE00F#16, 0x0004#16⟩
  | .jr _ => ⟨"jr", 0xE00F#16, 0x0008#16⟩
  | .addi _ _ _ => ⟨"addi", 0xE000#16, 0x2000#16⟩
  | .j _ => ⟨"j", 0xE000#16, 0x4000#16⟩
  | .jal _ => ⟨"jal", 0xE000#16, 0x6000#16⟩
  | .lw _ _ _ => ⟨"lw", 0xE000#16, 0x8000#16⟩
  | .sw _ _ _ => ⟨"sw", 0xE000#16, 0xA000#16⟩
  | .jeq _ _ _ => ⟨"jeq", 0xE000#16, 0xC000#16⟩
  | .slti _ _ _ => ⟨"slti", 0xE000#16, 0xE000#16⟩
  | .reserved5 _ => ⟨"reserved_func_5", 0xE00F#16, 0x0005#16⟩
  | .reserved6 _ => ⟨"reserved_func_6", 0xE00F#16, 0x0006#16⟩
  | .reserved7 _ => ⟨"reserved_func_7", 0xE00F#16, 0x0007#16⟩
  | .reserved9 _ => ⟨"reserved_func_9", 0xE00F#16, 0x0009#16⟩
  | .reserved10 _ => ⟨"reserved_func_10", 0xE00F#16, 0x000A#16⟩
  | .reserved11 _ => ⟨"reserved_func_11", 0xE00F#16, 0x000B#16⟩
  | .reserved12 _ => ⟨"reserved_func_12", 0xE00F#16, 0x000C#16⟩
  | .reserved13 _ => ⟨"reserved_func_13", 0xE00F#16, 0x000D#16⟩
  | .reserved14 _ => ⟨"reserved_func_14", 0xE00F#16, 0x000E#16⟩
  | .reserved15 _ => ⟨"reserved_func_15", 0xE00F#16, 0x000F#16⟩

/-- The 23 rows of spec/opcode_table.json, in its order (R82). -/
def opcodeTable : List OpcodeRow :=
  [Instr.row (.add 0 0 0), Instr.row (.sub 0 0 0), Instr.row (.or 0 0 0), Instr.row (.and 0 0 0),
   Instr.row (.slt 0 0 0), Instr.row (.jr 0), Instr.row (.addi 0 0 0), Instr.row (.j 0), Instr.row (.jal 0),
   Instr.row (.lw 0 0 0), Instr.row (.sw 0 0 0), Instr.row (.jeq 0 0 0), Instr.row (.slti 0 0 0)] ++
  [Instr.row (.reserved5 0), Instr.row (.reserved6 0), Instr.row (.reserved7 0), Instr.row (.reserved9 0),
   Instr.row (.reserved10 0), Instr.row (.reserved11 0), Instr.row (.reserved12 0), Instr.row (.reserved13 0),
   Instr.row (.reserved14 0), Instr.row (.reserved15 0)]

/-! ## The assembler notation -/

/-- A register of the notation as a field. -/
def asmReg (n : Nat) : RegIdx := BitVec.ofNat 3 n

/-- `imm7 = imm mod 128` (R77). -/
def asmImm (i : Int) : Imm7 := BitVec.ofInt 7 i

/-- `imm13 = t` (R77). -/
def asmTarget (t : Nat) : Imm13 := BitVec.ofNat 13 t

/-- The Word of a line, its ranges taken as checked (R77, R78). -/
def asmWord (addr : Nat) : AsmLine → Word
  | .add d a b => encode (.add (asmReg a) (asmReg b) (asmReg d))
  | .sub d a b => encode (.sub (asmReg a) (asmReg b) (asmReg d))
  | .or d a b => encode (.or (asmReg a) (asmReg b) (asmReg d))
  | .and d a b => encode (.and (asmReg a) (asmReg b) (asmReg d))
  | .slt d a b => encode (.slt (asmReg a) (asmReg b) (asmReg d))
  | .jr a => encode (.jr (asmReg a))
  | .addi d a imm => encode (.addi (asmReg a) (asmReg d) (asmImm imm))
  | .slti d a imm => encode (.slti (asmReg a) (asmReg d) (asmImm imm))
  | .lw d imm a => encode (.lw (asmReg a) (asmReg d) (asmImm imm))
  | .sw s imm a => encode (.sw (asmReg a) (asmReg s) (asmImm imm))
  | .jeq a b off => encode (.jeq (asmReg a) (asmReg b) (asmImm off))
  | .j t => encode (.j (asmTarget t))
  | .jal t => encode (.jal (asmTarget t))
  | .halt => encode (.j (asmTarget addr))
  | .nop => encode (.add 0 0 0)
  | .fill v => BitVec.ofNat 16 v

/-- The Word that a line at address `addr` stands for, or none where an operand is out of its range (R77, R78). -/
def assemble (addr : Nat) (l : AsmLine) : Option Word :=
  if l.wellFormed addr then some (asmWord addr l) else none

/-! ## The host's entry -/

/-- The instruction the decoder reads from an instruction's `nbits` bits. One instruction is one Word of 16 bits (R60); a row of more
bits is none of this machine's (log 15). -/
def decodeTableWord (nbits w : Nat) : Option Instr :=
  if nbits ≤ Config.ilen then some (decode (BitVec.ofNat 16 (w % 2 ^ nbits))) else none

end Sys2Proof
end

