-- ==== Sys2Proof/Machine/State.lean ====
section
/-! DEFINITION. The architectural state of the E20 core, "exactly three things": registers, memory and pc (10_state.md R20). Plain
data. There is no flag, control register, mode, halted bit or buffer (R28, R29, R33, R34). -/

namespace Sys2Proof.Machine

/-- The stored general registers, 1 to 7 (R21, R163). Register 0 is hardwired to zero and has no cell: "a stored cell for
index 0 that is forced to 0, or no cell at all" (R22; log 12). -/
structure RegFile where
  x1 : Word
  x2 : Word
  x3 : Word
  x4 : Word
  x5 : Word
  x6 : Word
  x7 : Word
  deriving DecidableEq, Repr

/-- Memory: 8192 Words (R31, R40), held as (index, Word) cells. "A model must represent memory as 8192 Words, not as 16384
bytes" (R44, decision D9; log 5). An index that is not listed holds `Config.undeclaredWord`. -/
abbrev Memory := List (Nat × Word)

/-- The one canonical form: indices strictly rising and below 8192, no cell equal to what an unlisted index reads as. -/
abbrev Memory.wf (m : Memory) : Prop :=
  m.Pairwise (fun c d => c.1 < d.1) ∧ ∀ c ∈ m, c.1 < Config.memWords ∧ c.2 ≠ Config.undeclaredWord

/-- The triple `(x, pc, mem)` of R20. -/
structure State where
  /-- Registers 1 to 7 (R21 to R24). -/
  regs : RegFile
  /-- The address of the instruction of the step (R25). -/
  pc : Word
  /-- Instruction and data memory, one space (R31, R40). -/
  mem : Memory
  deriving DecidableEq, Repr

/-- Why a step faults: never. "There is no fourth outcome: no fault, no trap, no exception" (R10), and the list of
exception causes is empty (R190), so the type has no constructor. Nothing raises it, which is safe (log 9). -/
inductive Fault where
  deriving DecidableEq, Repr

/-- Why a step is refused. -/
inductive Refusal where
  /-- The instruction has no meaning in the model yet: raised by an arm of `exec` alone, and by none now. Safe: it only makes
  claims unprovable. -/
  | notModelled (mnemonic : String)
  deriving DecidableEq, Repr

/-- The registers after reset: all zero (R35, R210). -/
def RegFile.zero : RegFile := ⟨0#16, 0#16, 0#16, 0#16, 0#16, 0#16, 0#16⟩

/-- The machine right after reset (R35, R210): registers 0, pc 0, memory `MEM_INIT`. Here the loader has declared no Word, so
every Word is 0, "zero-initialized at load"; `State.start` takes any `MEM_INIT` (R6, decision D10; log 6). -/
def State.reset : State := ⟨RegFile.zero, Config.resetPc, []⟩

end Sys2Proof.Machine
end

