-- ==== Sys2Proof/Machine/Ops.lean ====
section
/-! DEFINITION. The named operations over registers, memory and pc (00_scope.md R9), and the ways a meaning ends. There is no
exception to take and none to return from (60_exceptions.md R190, R194, R195), so there is no operation for either. -/

namespace Sys2Proof.Machine

/-! ## Registers -/

/-- `x[r]`: register 0 reads 0 in every state (R22); the other seven are the stored cells (R21). -/
def RegFile.read (x : RegFile) (r : RegIdx) : Word :=
  match r with
  | 0#3 => 0#16
  | 1#3 => x.x1
  | 2#3 => x.x2
  | 3#3 => x.x3
  | 4#3 => x.x4
  | 5#3 => x.x5
  | 6#3 => x.x6
  | 7#3 => x.x7

/-- `x[r] <- v`: a write to register 0 is discarded (R22, R99, R163). -/
def RegFile.write (x : RegFile) (r : RegIdx) (v : Word) : RegFile :=
  match r with
  | 0#3 => x
  | 1#3 => { x with x1 := v }
  | 2#3 => { x with x2 := v }
  | 3#3 => { x with x3 := v }
  | 4#3 => { x with x4 := v }
  | 5#3 => { x with x5 := v }
  | 6#3 => { x with x6 := v }
  | 7#3 => { x with x7 := v }

/-- Read of a general register in a state (R9). -/
def State.readReg (s : State) (r : RegIdx) : Word := s.regs.read r

/-- Write of a general register in a state (R9). -/
def State.writeReg (s : State) (r : RegIdx) (v : Word) : State := { s with regs := s.regs.write r v }

/-! ## Memory -/

/-- The index that an address names: every address is reduced modulo 8192 (R41, R42; for the fetch decision D2, log 3). -/
def wrapIndex (a : Nat) : Nat := a % Config.memWords

/-- The Word of the cell with index `i`; an unlisted index holds 0 (R6, R35). -/
def Memory.cellAt : Memory → Nat → Word
  | [], _ => Config.undeclaredWord
  | c :: m, i => if c.1 = i then c.2 else Memory.cellAt m i

/-- The memory without the cell of index `i`. -/
def Memory.without (m : Memory) (i : Nat) : Memory := m.filter (fun c => c.1 != i)

/-- The cells with one more, put before the first of a higher index. -/
def Memory.insertCell (i : Nat) (v : Word) : Memory → Memory
  | [] => [(i, v)]
  | c :: m => if c.1 < i then c :: Memory.insertCell i v m else (i, v) :: c :: m

/-- `MemRead(a)`: total, changes nothing (R41, R47). -/
def Memory.read (m : Memory) (a : Nat) : Word := m.cellAt (wrapIndex a)

/-- `MemWrite(a, v)`: sets the Word at `a mod 8192` and no other (R41, R47). A zero leaves no cell, so that the form stays
canonical. -/
def Memory.write (m : Memory) (a : Nat) (v : Word) : Memory :=
  if v = Config.undeclaredWord then m.without (wrapIndex a)
  else Memory.insertCell (wrapIndex a) v (m.without (wrapIndex a))

/-- `MemRead(a)` in a state (R41). -/
def State.memRead (s : State) (a : Nat) : Word := s.mem.read a

/-- `MemWrite(a, v)` in a state (R41). -/
def State.memWrite (s : State) (a : Nat) (v : Word) : State := { s with mem := s.mem.write a v }

/-! ## The program counter and the fetch -/

/-- `pc <- t` (R9). -/
def State.setPc (s : State) (t : Word) : State := { s with pc := t }

/-- `(pc + 1) mod 2^16` (R97; decision D1, log 3). -/
def State.pcPlusOne (s : State) : Word := s.pc + 1#16

/-- The default next pc (R97). -/
def State.advance (s : State) : State := s.setPc s.pcPlusOne

/-- The instruction fetch: the Word at `pc mod 8192`, never refused (R90). -/
def State.fetch (s : State) : Word := s.memRead s.pc.toNat

/-! ## How an instruction ends -/

/-- A register write and the default next pc, together, all values taken from the state before (R98, R99; decision D11, log 18). -/
def writeBack (s : State) (d : RegIdx) (v : Word) : Host.Outcome State Fault Refusal :=
  .next (s.writeReg d v).advance

/-- A memory write and the default next pc, together (R98, R132). -/
def storeBack (s : State) (a : Nat) (v : Word) : Host.Outcome State Fault Refusal :=
  .next (s.memWrite a v).advance

/-- A control transfer: the pc alone is set (R140). -/
def jumpTo (s : State) (t : Word) : Host.Outcome State Fault Refusal :=
  .next (s.setPc t)

/-- The halting step: "no register, no memory Word and not the pc is changed" (R96, R145). DESIGN CHOICE, unsafe: the host's
interface has no outcome for the end of a run, so the step answers the same state, which `halted` tells apart (log 1). -/
def haltStep (s : State) : Host.Outcome State Fault Refusal := .next s

/-- The stalling step: nothing changes and "the run is not over" (R146, decision D4). DESIGN CHOICE, unsafe: it answers the
same state, which `stalled` tells apart (log 2). -/
def stallStep (s : State) : Host.Outcome State Fault Refusal := .next s

end Sys2Proof.Machine
end

