-- ==== Sys2Proof/Machine/Flags.lean ====
section
/-! DEFINITION. The comparisons. The machine has no flags (10_state.md R28): slt and slti put a 0 or 1 in a general register and
jeq compares two registers itself. -/

namespace Sys2Proof.Machine

/-- `signed16`: the two's-complement reading of a Word (R8). -/
def signed16 (v : Word) : Int := if v.toNat < 32768 then v.toNat else (v.toNat : Int) - 65536

/-- The comparison of slt: unsigned (R115). -/
def lessUnsigned (a b : Word) : Bool := decide (a.toNat < b.toNat)

/-- The comparison of slti: signed (R122, R123; C9). UNVERIFIED, unsafe: kept in this one function as G1 advises (log 4). -/
def lessSigned (a : Word) (i : Int) : Bool := decide (signed16 a < i)

/-- The Word `0x0001` or `0x0000` (R115, R122). -/
def truthWord (b : Bool) : Word := if b then 1#16 else 0#16

/-- The comparison of jeq: all 16 bits (R142). -/
def sameWord (a b : Word) : Bool := a == b

end Sys2Proof.Machine
end

