-- ==== Sys2Proof/Machine/Operands.lean ====
section
/-! DEFINITION. The operand forms: register, sign-extended imm7, zero-extended imm13, base plus displacement (30_encoding.md R69;
43_load_store.md R130), and the branch target (44_control_flow.md R142). The extensions themselves are in Sys2Proof/Decode.lean. -/

namespace Sys2Proof.Machine

/-- `ea16 = (x[rA] + sext7(imm7)) mod 2^16` (R130): the base register is not changed. -/
def effectiveAddress (s : State) (rA : RegIdx) (imm7 : Imm7) : Word := s.readReg rA + sext16 imm7

/-- `idx = ea16 mod 8192`, the memory index of lw and sw (R130). -/
def dataIndex (s : State) (rA : RegIdx) (imm7 : Imm7) : Nat := wrapIndex (effectiveAddress s rA imm7).toNat

/-- `(pc + 1 + sext7(imm7)) mod 2^16`, exact before it is reduced (R142; decisions D1, D19, log 3). -/
def branchTarget (s : State) (imm7 : Imm7) : Word := BitVec.ofInt 16 (s.pc.toNat + 1 + sext7 imm7)

/-- The absolute target of j and jal (R143, R144). -/
def jumpTarget (imm13 : Imm13) : Word := zext16 imm13

/-- Whether a j is the halt convention here: its target is the full 16-bit pc (R92, R94, R145; decision D3, log 3). -/
def targetsItself (s : State) (imm13 : Imm13) : Bool := jumpTarget imm13 == s.pc

end Sys2Proof.Machine
end

