-- ==== Sys2Proof/Machine/AluImmediate.lean ====
section
/-! DEFINITION. addi and slti (42_alu_immediate.md R120 to R123). -/

namespace Sys2Proof.Machine

/-- `x[rB] <- (x[rA] + sext7(imm7)) mod 2^16` (R121). -/
def execAddi (rA rB : RegIdx) (imm7 : Imm7) (s : State) : Host.Outcome State Fault Refusal :=
  writeBack s rB (s.readReg rA + sext16 imm7)

/-- `x[rB] <- (if signed16(x[rA]) <s sext7(imm7) then 1 else 0)` (R122). -/
def execSlti (rA rB : RegIdx) (imm7 : Imm7) (s : State) : Host.Outcome State Fault Refusal :=
  writeBack s rB (truthWord (lessSigned (s.readReg rA) (sext7 imm7)))

end Sys2Proof.Machine
end

