-- ==== Sys2Proof/Machine/AluRegister.lean ====
section
/-! DEFINITION. add, sub, or, and, slt (41_alu_register.md R110 to R116). -/

namespace Sys2Proof.Machine

/-- `x[rD] <- (x[rA] + x[rB]) mod 2^16` (R111). -/
def execAdd (rA rB rD : RegIdx) (s : State) : Host.Outcome State Fault Refusal :=
  writeBack s rD (s.readReg rA + s.readReg rB)

/-- `x[rD] <- (x[rA] - x[rB]) mod 2^16` (R112). -/
def execSub (rA rB rD : RegIdx) (s : State) : Host.Outcome State Fault Refusal :=
  writeBack s rD (s.readReg rA - s.readReg rB)

/-- `x[rD] <- x[rA] OR x[rB]` (R113). -/
def execOr (rA rB rD : RegIdx) (s : State) : Host.Outcome State Fault Refusal :=
  writeBack s rD (s.readReg rA ||| s.readReg rB)

/-- `x[rD] <- x[rA] AND x[rB]` (R114). -/
def execAnd (rA rB rD : RegIdx) (s : State) : Host.Outcome State Fault Refusal :=
  writeBack s rD (s.readReg rA &&& s.readReg rB)

/-- `x[rD] <- (if x[rA] <u x[rB] then 1 else 0)` (R115). -/
def execSlt (rA rB rD : RegIdx) (s : State) : Host.Outcome State Fault Refusal :=
  writeBack s rD (truthWord (lessUnsigned (s.readReg rA) (s.readReg rB)))

end Sys2Proof.Machine
end

