-- ==== Sys2Proof/Machine/ControlFlow.lean ====
section
/-! DEFINITION. jr, jeq, j with the halt convention, and jal (44_control_flow.md R140 to R145). -/

namespace Sys2Proof.Machine

/-- `pc <- x[rA]`: all 16 bits, no + 1, no register written (R141; decision D21, log 3). -/
def execJr (rA : RegIdx) (s : State) : Host.Outcome State Fault Refusal :=
  jumpTo s (s.readReg rA)

/-- `if x[rA] == x[rB] then pc <- (pc + 1 + sext7(imm7)) mod 2^16 else pc <- (pc + 1) mod 2^16` (R142). -/
def execJeq (rA rB : RegIdx) (imm7 : Imm7) (s : State) : Host.Outcome State Fault Refusal :=
  jumpTo s (if sameWord (s.readReg rA) (s.readReg rB) then branchTarget s imm7 else s.pcPlusOne)

/-- `pc <- zext_16(imm13)` (R143), or the halt convention where that is the pc itself: it is then not executed (R145). -/
def execJ (imm13 : Imm13) (s : State) : Host.Outcome State Fault Refusal :=
  if targetsItself s imm13 then haltStep s else jumpTo s (jumpTarget imm13)

/-- `x[7] <- (pc + 1) mod 2^16; pc <- zext_16(imm13)`, both from the old pc; never a halt (R144, R93; decision D20, log 3). -/
def execJal (imm13 : Imm13) (s : State) : Host.Outcome State Fault Refusal :=
  jumpTo (s.writeReg Config.linkReg s.pcPlusOne) (jumpTarget imm13)

end Sys2Proof.Machine
end

