-- ==== Sys2Proof/Machine/LoadStore.lean ====
section
/-! DEFINITION. lw and sw (43_load_store.md R130 to R134). -/

namespace Sys2Proof.Machine

/-- `x[rB] <- MemRead(idx)`; for `rB = 0` the Word is read and discarded (R131, R134; decision D18, log 18). -/
def execLw (rA rB : RegIdx) (imm7 : Imm7) (s : State) : Host.Outcome State Fault Refusal :=
  writeBack s rB (s.memRead (dataIndex s rA imm7))

/-- `MemWrite(idx, x[rB])` (R132). -/
def execSw (rA rB : RegIdx) (imm7 : Imm7) (s : State) : Host.Outcome State Fault Refusal :=
  storeBack s (dataIndex s rA imm7) (s.readReg rB)

end Sys2Proof.Machine
end

