-- ==== Sys2Proof/Machine/Reserved.lean ====
section
/-! DEFINITION. The ten reserved-func words of opcode 000: each makes the core stall (30_encoding.md R72; 44_control_flow.md R146;
decision D4; log 2). Their other bits are ignored. -/

namespace Sys2Proof.Machine

/-- Reserved func 5: `Stall` (R146). -/
def execReserved5 (_ignored : BitVec 9) (s : State) : Host.Outcome State Fault Refusal := stallStep s

/-- Reserved func 6: `Stall` (R146). -/
def execReserved6 (_ignored : BitVec 9) (s : State) : Host.Outcome State Fault Refusal := stallStep s

/-- Reserved func 7: `Stall` (R146). -/
def execReserved7 (_ignored : BitVec 9) (s : State) : Host.Outcome State Fault Refusal := stallStep s

/-- Reserved func 9: `Stall` (R146). -/
def execReserved9 (_ignored : BitVec 9) (s : State) : Host.Outcome State Fault Refusal := stallStep s

/-- Reserved func 10: `Stall` (R146). -/
def execReserved10 (_ignored : BitVec 9) (s : State) : Host.Outcome State Fault Refusal := stallStep s

/-- Reserved func 11: `Stall` (R146). -/
def execReserved11 (_ignored : BitVec 9) (s : State) : Host.Outcome State Fault Refusal := stallStep s

/-- Reserved func 12: `Stall` (R146). -/
def execReserved12 (_ignored : BitVec 9) (s : State) : Host.Outcome State Fault Refusal := stallStep s

/-- Reserved func 13: `Stall` (R146). -/
def execReserved13 (_ignored : BitVec 9) (s : State) : Host.Outcome State Fault Refusal := stallStep s

/-- Reserved func 14: `Stall` (R146). -/
def execReserved14 (_ignored : BitVec 9) (s : State) : Host.Outcome State Fault Refusal := stallStep s

/-- Reserved func 15: `Stall` (R146). -/
def execReserved15 (_ignored : BitVec 9) (s : State) : Host.Outcome State Fault Refusal := stallStep s

end Sys2Proof.Machine
end

