-- ==== Sys2Proof/Machine/Dispatch.lean ====
section
/-! DEFINITION. The choice of a meaning by the instruction, `Execute(d, s)` of 40_fetch_decode_step.md R95. -/

namespace Sys2Proof.Machine

/-- One arm per row of spec/opcode_table.json. -/
def exec (i : Instr) (s : State) : Host.Outcome State Fault Refusal :=
  match i with
  | .add rA rB rD => Sys2Proof.Machine.execAdd rA rB rD s
  | .sub rA rB rD => Sys2Proof.Machine.execSub rA rB rD s
  | .or rA rB rD => Sys2Proof.Machine.execOr rA rB rD s
  | .and rA rB rD => Sys2Proof.Machine.execAnd rA rB rD s
  | .slt rA rB rD => Sys2Proof.Machine.execSlt rA rB rD s
  | .jr rA => Sys2Proof.Machine.execJr rA s
  | .addi rA rB imm7 => Sys2Proof.Machine.execAddi rA rB imm7 s
  | .j imm13 => Sys2Proof.Machine.execJ imm13 s
  | .jal imm13 => Sys2Proof.Machine.execJal imm13 s
  | .lw rA rB imm7 => Sys2Proof.Machine.execLw rA rB imm7 s
  | .sw rA rB imm7 => Sys2Proof.Machine.execSw rA rB imm7 s
  | .jeq rA rB imm7 => Sys2Proof.Machine.execJeq rA rB imm7 s
  | .slti rA rB imm7 => Sys2Proof.Machine.execSlti rA rB imm7 s
  | .reserved5 ignored => Sys2Proof.Machine.execReserved5 ignored s
  | .reserved6 ignored => Sys2Proof.Machine.execReserved6 ignored s
  | .reserved7 ignored => Sys2Proof.Machine.execReserved7 ignored s
  | .reserved9 ignored => Sys2Proof.Machine.execReserved9 ignored s
  | .reserved10 ignored => Sys2Proof.Machine.execReserved10 ignored s
  | .reserved11 ignored => Sys2Proof.Machine.execReserved11 ignored s
  | .reserved12 ignored => Sys2Proof.Machine.execReserved12 ignored s
  | .reserved13 ignored => Sys2Proof.Machine.execReserved13 ignored s
  | .reserved14 ignored => Sys2Proof.Machine.execReserved14 ignored s
  | .reserved15 ignored => Sys2Proof.Machine.execReserved15 ignored s

end Sys2Proof.Machine
end

