-- ==== Sys2Proof/Machine/Step.lean ====
section
/-! DEFINITION. One step of the core (40_fetch_decode_step.md R95): fetch, decode, execute. The test of R95 for the halt flag
stands in the meaning of j, and the test for RESERVED in the meanings of the reserved words. -/

namespace Sys2Proof.Machine

/-- One step: fetch the Word at the pc, decode it, run it (R90, R91, R95, R98). -/
def step (s : State) : Host.Outcome State Fault Refusal := exec (decode s.fetch) s

/-- `s` with the instruction of `nbits` bits stored where `step` fetches next, at index `pc mod 8192` (R90). It stands for what the
loader does before a run (log 10). -/
def State.withFetchWord (s : State) (nbits w : Nat) : State :=
  s.memWrite s.pc.toNat (BitVec.ofNat 16 (w % 2 ^ nbits))

end Sys2Proof.Machine
end

