-- ==== Sys2Proof/Machine/HostSide.lean ====
section
/-! DEFINITION. What the surroundings can do to the core before a run: the reset input and the loader (70_reset_and_hazards.md R210
to R217; 45_datapath_interfaces.md R174, R176). They have no move during a run (R54, R224; decision D17, log 13). -/

namespace Sys2Proof.Machine

/-- Reset asserted at a clock edge: pc and registers to their reset values, memory as it was (R174, R213, R214; decisions D8,
D22, log 13). It abandons whatever run there was. -/
def State.assertReset (s : State) : State := { s with regs := RegFile.zero, pc := Config.resetPc }

/-- One Word written by the loader, while reset is held (R176, R217). -/
def State.loaderWrite (s : State) (a : Nat) (v : Word) : State := s.memWrite a v

/-- The cells of `MEM_INIT` for the `n` indices from `a` on. -/
def Memory.cellsFrom (memInit : Nat → Word) : Nat → Nat → Memory
  | _, 0 => []
  | a, n + 1 =>
    if memInit a = Config.undeclaredWord then Memory.cellsFrom memInit (a + 1) n
    else (a, memInit a) :: Memory.cellsFrom memInit (a + 1) n

/-- The memory that holds `MEM_INIT` (R6): "every function from indices to Words is a legal `MEM_INIT`". -/
def Memory.ofInit (memInit : Nat → Word) : Memory := Memory.cellsFrom memInit 0 Config.memWords

/-- The memory of a loaded image: "a loaded image occupies a prefix `0 .. n-1` of memory and the rest is 0" (R43, R212). -/
def Memory.ofImage (image : List Word) : Memory :=
  Memory.ofInit (fun a => image.getD a Config.undeclaredWord)

/-- The state in which a run with this `MEM_INIT` starts (R35, R210). -/
def State.start (memInit : Nat → Word) : State := ⟨RegFile.zero, Config.resetPc, Memory.ofInit memInit⟩

end Sys2Proof.Machine
end

