-- ==== Sys2Proof/Machine/Datapath.lean ====
section
/-! DEFINITION. The E20 core as a block of hardware: the seven units, the selections of the decode/execute mux and the ports
(45_datapath_interfaces.md R160 to R178). It is a second view of the same machine, made from the decoded bundle and the selection
table, not from the meanings; "if anything in this file disagrees with files 40 to 44, those files win". Where the table has a
dash the selection is `none` (log 11). -/

namespace Sys2Proof.Machine

/-- `alu_op` (R164). -/
inductive AluOp where
  | add | sub | or | and | sltu | slts
  deriving DecidableEq, Repr

/-- `alu_b_sel` (R165). -/
inductive AluBSel where
  | reg | imm
  deriving DecidableEq, Repr

/-- `waddr_sel` (R167). -/
inductive WaddrSel where
  | rD | rB | r7
  deriving DecidableEq, Repr

/-- `wb_sel` (R166). -/
inductive WbSel where
  | alu | mem | pc1
  deriving DecidableEq, Repr

/-- `pc_sel` (R170). -/
inductive PcSel where
  | pc1 | br | imm13 | regA | hold
  deriving DecidableEq, Repr

/-- The outputs of the decode/execute mux: a row of the selection table (R177). -/
structure Selections where
  aluOp : Option AluOp
  aluBSel : Option AluBSel
  rfWe : Bool
  waddrSel : Option WaddrSel
  wbSel : Option WbSel
  dmemRe : Bool
  dmemWe : Bool
  pcSel : PcSel
  deriving DecidableEq, Repr

/-- A row that writes nothing and sets the pc (R168, R169, R171). -/
def selectPcOnly (pcSel : PcSel) : Selections := ⟨none, none, false, none, none, false, false, pcSel⟩

/-- A row that writes the ALU result to a register (R164 to R168). -/
def selectAlu (op : AluOp) (b : AluBSel) (waddr : WaddrSel) : Selections :=
  ⟨some op, some b, true, some waddr, some .alu, false, false, .pc1⟩

/-- The selection table, one row per tag (R177), with the halt and stall gate of R171. `eq` is the equality comparator of the
control-flow unit (R164). -/
def select (d : Decoded) (eq : Bool) : Selections :=
  match d.tag with
  | .add => selectAlu .add .reg .rD
  | .sub => selectAlu .sub .reg .rD
  | .or => selectAlu .or .reg .rD
  | .and => selectAlu .and .reg .rD
  | .slt => selectAlu .sltu .reg .rD
  | .jr => selectPcOnly .regA
  | .addi => selectAlu .add .imm .rB
  | .slti => selectAlu .slts .imm .rB
  | .lw => ⟨some .add, some .imm, true, some .rB, some .mem, true, false, .pc1⟩
  | .sw => ⟨some .add, some .imm, false, none, none, false, true, .pc1⟩
  | .jeq => selectPcOnly (if eq then .br else .pc1)
  | .j => selectPcOnly (if d.halt then .hold else .imm13)
  | .jal => ⟨none, none, true, some .r7, some .pc1, false, false, .imm13⟩
  | .reserved => selectPcOnly .hold

/-- The ALU (R164): no flag outputs. -/
def alu (op : AluOp) (a b : Word) : Word :=
  match op with
  | .add => a + b
  | .sub => a - b
  | .or => a ||| b
  | .and => a &&& b
  | .sltu => truthWord (lessUnsigned a b)
  | .slts => truthWord (lessSigned a (signed16 b))

/-! The combinational part. `x` and `pc` are what the core stores, `w` is the instruction word on `imem_rdata`. -/

/-- The selections of the step (R160, R177). -/
def muxOut (x : RegFile) (pc w : Word) : Selections :=
  let d := decodeBundle w pc
  select d (sameWord (x.read d.rA) (x.read d.rB))

/-- The ALU result `r`, where the selected row uses the ALU (R164, R165). -/
def aluOut (x : RegFile) (pc w : Word) : Option Word :=
  let d := decodeBundle w pc
  let sel := muxOut x pc w
  match sel.aluOp, sel.aluBSel with
  | some op, some .reg => some (alu op (x.read d.rA) (x.read d.rB))
  | some op, some .imm => some (alu op (x.read d.rA) (sext16 d.imm7))
  | _, _ => none

/-- The output ports of the core (R172; decision D7, log 19). The register read-out port is `dbgRegData`. -/
structure Outputs where
  imemAddr : MemIdx
  dmemAddr : Option MemIdx
  dmemWdata : Word
  dmemWe : Bool
  dmemRe : Bool
  halt : Bool
  stall : Bool
  dbgPc : Word
  deriving DecidableEq, Repr

/-- The fetch index `pc[12:0]` (R161). -/
def imemAddr (pc : Word) : MemIdx := extract pc 0 13

/-- The output ports in a step (R161, R169, R171, R172, R175). -/
def outputs (x : RegFile) (pc w : Word) : Outputs :=
  let d := decodeBundle w pc
  let sel := muxOut x pc w
  { imemAddr := imemAddr pc
    dmemAddr := (aluOut x pc w).map (fun r => extract r 0 13)
    dmemWdata := x.read d.rB
    dmemWe := sel.dmemWe
    dmemRe := sel.dmemRe
    halt := d.halt
    stall := d.tag == .reserved
    dbgPc := pc }

/-- `dbg_reg_data` for `dbg_reg_idx`: index 0 reads 0 (R175). -/
def dbgRegData (x : RegFile) (dbgRegIdx : RegIdx) : Word := x.read dbgRegIdx

/-- `waddr` (R167). -/
def writeAddress (x : RegFile) (pc w : Word) : Option RegIdx :=
  let d := decodeBundle w pc
  match (muxOut x pc w).waddrSel with
  | some .rD => some d.rD
  | some .rB => some d.rB
  | some .r7 => some Config.linkReg
  | none => none

/-- `wdata`, with the Word on `dmem_rdata` (R166). -/
def writeData (x : RegFile) (pc w : Word) (dmemRdata : Option Word) : Option Word :=
  match (muxOut x pc w).wbSel with
  | some .alu => aluOut x pc w
  | some .mem => dmemRdata
  | some .pc1 => some (pc + 1#16)
  | none => none

/-- The register file at the end of the step (R163, R168). -/
def nextRegs (x : RegFile) (pc w : Word) (dmemRdata : Option Word) : RegFile :=
  match (muxOut x pc w).rfWe, writeAddress x pc w, writeData x pc w dmemRdata with
  | true, some r, some v => x.write r v
  | _, _, _ => x

/-- The pc at the end of the step (R170). -/
def nextPc (x : RegFile) (pc w : Word) : Word :=
  let d := decodeBundle w pc
  match (muxOut x pc w).pcSel with
  | .pc1 => pc + 1#16
  | .br => BitVec.ofInt 16 (pc.toNat + 1 + sext7 d.imm7)
  | .imm13 => zext16 d.imm13
  | .regA => x.read d.rA
  | .hold => pc

/-- The memory at the end of the step: one write, if the store strobe is 1 (R169). -/
def nextMem (m : Memory) (o : Outputs) : Memory :=
  match o.dmemWe, o.dmemAddr with
  | true, some a => m.write a.toNat o.dmemWdata
  | _, _ => m

/-- The machine at a rising edge of `clk` (R173, R174): the core and the one memory its two address ports share (R172). All
writes of a step land together; a read sees the content before the write. -/
def clockEdge (rst : Bool) (s : State) : State :=
  if rst then s.assertReset
  else
    let w := s.mem.read (imemAddr s.pc).toNat
    let o := outputs s.regs s.pc w
    let rdata := o.dmemAddr.map (fun a => s.mem.read a.toNat)
    { regs := nextRegs s.regs s.pc w rdata, pc := nextPc s.regs s.pc w, mem := nextMem s.mem o }

end Sys2Proof.Machine
end

