-- ==== Sys2Proof/Machine/Run.lean ====
section
/-! DEFINITION. The three outcomes of a step and the run to `Halt` (00_scope.md R10; 40_fetch_decode_step.md R95, R96, R100, R101;
10_state.md R34, R36). `step` answers the same state for `Halt` and for `Stall` (log 1, log 2); here they are told apart. -/

namespace Sys2Proof.Machine

/-- The decoded instruction of the state: fresh in every step, no state (R32, R95). -/
def State.decoded (s : State) : Decoded := decodeBundle s.fetch s.pc

/-- The `halt` output: "the core is halted exactly when `Decode(mem[pc mod 8192], pc)` has its halt flag set" (R34). -/
def State.halted (s : State) : Bool := s.decoded.halt

/-- The `stall` output: the current Word is reserved-func (R146, R172). -/
def State.stalled (s : State) : Bool := s.decoded.tag == .reserved

/-- The outcome of a step (R10). -/
inductive StepOutcome where
  /-- One instruction was executed and this is the state now. -/
  | next (s : State)
  /-- The run is over, the state is not changed. -/
  | halt
  /-- The run is never over, the state is not changed. -/
  | stall
  deriving DecidableEq, Repr

/-- `Step(s)` with its three outcomes, its next state from the hardware view (R95, R173). -/
def specStep (s : State) : StepOutcome :=
  if s.halted then .halt else if s.stalled then .stall else .next (clockEdge false s)

/-- How an executor with fuel ends. `outOfFuel` is its artefact, not an outcome of the machine (R100, R223). -/
inductive RunEnd where
  | halted (final : State)
  | outOfFuel
  deriving DecidableEq, Repr

/-- The run: it ends at the first step that answers `Halt`, and a stalled core goes on for ever (R100, R104). -/
def runToHalt : Nat → State → RunEnd
  | 0, _ => .outOfFuel
  | n + 1, s =>
    match specStep s with
    | .halt => .halted s
    | .stall => runToHalt n s
    | .next t => runToHalt n t

/-- What the reporter reads after the run: pc, the 8 registers in order, and all 8192 Words (R36, R101). -/
structure Report where
  pc : Word
  registers : List Word
  memory : List Word
  deriving DecidableEq, Repr

/-- The read-out, given when `halt = 1` (R175; decision D16, log 17). -/
def report (s : State) : Option Report :=
  if s.halted then
    some { pc := s.pc
           registers := (List.range Config.nregs).map (fun r => dbgRegData s.regs (BitVec.ofNat 3 r))
           memory := (List.range Config.memWords).map s.mem.read }
  else none

end Sys2Proof.Machine
end

