-- ==== Sys2Proof/Safety.lean ====
section
/-! DEFINITION. How a run can end or fail to end (60_exceptions.md R203). The machine has no fault, so "the only thing that can go wrong
with a program on this machine is that it does not reach `Halt`". -/

namespace Sys2Proof.Machine

/-- `t` is the state after some number of steps from `s` (R100). -/
inductive Reaches (s : State) : State → Prop where
  | refl : Reaches s s
  | tail {t u : State} : Reaches s t → step t = .next u → Reaches s u

/-- R203 (a): some step returns `Halt`; the state there is final. -/
def Terminates (s : State) : Prop := ∃ t, Reaches s t ∧ t.halted = true

/-- R203 (b): some step returns `Stall`. -/
def StallsForEver (s : State) : Prop := ∃ t, Reaches s t ∧ t.stalled = true

/-- R203 (c): every step returns `Next`. -/
def Diverges (s : State) : Prop := ∀ t, Reaches s t → t.halted = false ∧ t.stalled = false

/-- The premise 92_eei_decisions.md recommends: under it a claim rests on none of D1, D2, D3, D19, D20, D21. -/
def PcStaysLow (s : State) : Prop := ∀ t, Reaches s t → t.pc.toNat < Config.memWords

/-- The run reaches its end, which is all that safety can ask here (R203). -/
def SafeRun (s : State) : Prop := Terminates s

end Sys2Proof.Machine
end

