-- ==== Sys2Proof/Certificates/Slice0/Obligations.lean ====
section
/-! DEFINITION. The statements for the provers. The vocabulary comes first; it says things in Nat, Int and single bits where the
model says them in BitVec operations, so that a statement does not repeat a definition. -/

namespace Sys2Proof.Claims

open Sys2Proof Sys2Proof.Machine

/-! ## Vocabulary -/

/-- `w[lo + n - 1 : lo]` by division (R7). -/
def slice (w : Word) (lo n : Nat) : BitVec n := BitVec.ofNat n (w.toNat / 2 ^ lo)

/-- `sext7` as R9 writes it. -/
def sx7 (v : Imm7) : Int := if v.toNat < 64 then v.toNat else (v.toNat : Int) - 128

/-- `signed16` as R8 writes it. -/
def signedValue (v : Word) : Int := if v.toNat < 32768 then v.toNat else (v.toNat : Int) - 65536

/-- No register changed. -/
def SameRegs (s t : State) : Prop := ∀ r, t.readReg r = s.readReg r

/-- No Word of memory changed. -/
def SameMem (s t : State) : Prop := ∀ a, t.memRead a = s.memRead a

/-- The pc went to `(pc + 1) mod 2^16`. -/
def PcPlusOne (s t : State) : Prop := t.pc.toNat = (s.pc.toNat + 1) % 65536

/-- Register `d` got `v` (nothing, if `d` is 0), and no other register changed. -/
def OnlyRegister (s t : State) (d : RegIdx) (v : Word) : Prop :=
  ∀ r, t.readReg r = if r = d ∧ d ≠ 0#3 then v else s.readReg r

/-- The whole effect of a register-writing, sequential instruction: its frame and its result. -/
def Computes (s t : State) (d : RegIdx) (v : Word) : Prop :=
  OnlyRegister s t d v ∧ PcPlusOne s t ∧ SameMem s t

/-- The destination register, as the table of R70 gives it. -/
def destination : Instr → Option RegIdx
  | .add _ _ rD | .sub _ _ rD | .or _ _ rD | .and _ _ rD | .slt _ _ rD => some rD
  | .addi _ rB _ | .slti _ rB _ | .lw _ rB _ => some rB
  | .jal _ => some 7#3
  | .jr _ | .sw _ _ _ | .jeq _ _ _ | .j _ => none
  | .reserved5 _ | .reserved6 _ | .reserved7 _ | .reserved9 _ | .reserved10 _ | .reserved11 _ | .reserved12 _
  | .reserved13 _ | .reserved14 _ | .reserved15 _ => none

/-- The memory index stored to: sw's alone, by the function its meaning uses (R54, R132). -/
def storeIndex (s : State) : Instr → Option Nat
  | .sw rA _ imm7 => some (dataIndex s rA imm7)
  | .add _ _ _ | .sub _ _ _ | .or _ _ _ | .and _ _ _ | .slt _ _ _ | .addi _ _ _ | .slti _ _ _ | .lw _ _ _ => none
  | .jr _ | .jeq _ _ _ | .j _ | .jal _ => none
  | .reserved5 _ | .reserved6 _ | .reserved7 _ | .reserved9 _ | .reserved10 _ | .reserved11 _ | .reserved12 _
  | .reserved13 _ | .reserved14 _ | .reserved15 _ => none

/-- The new pc, as the table of R26 gives it. -/
def newPc (s : State) : Instr → Int
  | .add _ _ _ | .sub _ _ _ | .or _ _ _ | .and _ _ _ | .slt _ _ _ | .addi _ _ _ | .slti _ _ _ | .lw _ _ _
  | .sw _ _ _ => (s.pc.toNat + 1) % 65536
  | .jeq rA rB imm7 =>
    if s.readReg rA = s.readReg rB then (s.pc.toNat + 1 + sx7 imm7) % 65536 else (s.pc.toNat + 1) % 65536
  | .jr rA => (s.readReg rA).toNat
  | .j imm13 => if imm13.toNat = s.pc.toNat then s.pc.toNat else imm13.toNat
  | .jal imm13 => imm13.toNat
  | .reserved5 _ | .reserved6 _ | .reserved7 _ | .reserved9 _ | .reserved10 _ | .reserved11 _ | .reserved12 _
  | .reserved13 _ | .reserved14 _ | .reserved15 _ => s.pc.toNat

/-- The tag of an instruction (R81). -/
def tagOf : Instr → Tag
  | .add _ _ _ => .add
  | .sub _ _ _ => .sub
  | .or _ _ _ => .or
  | .and _ _ _ => .and
  | .slt _ _ _ => .slt
  | .jr _ => .jr
  | .addi _ _ _ => .addi
  | .j _ => .j
  | .jal _ => .jal
  | .lw _ _ _ => .lw
  | .sw _ _ _ => .sw
  | .jeq _ _ _ => .jeq
  | .slti _ _ _ => .slti
  | .reserved5 _ | .reserved6 _ | .reserved7 _ | .reserved9 _ | .reserved10 _ | .reserved11 _ | .reserved12 _
  | .reserved13 _ | .reserved14 _ | .reserved15 _ => .reserved

/-- The tag by opcode and func number, as the `case` of R91 gives it. -/
def tagOfNumbers (op func : Nat) : Tag :=
  match op, func with
  | 0, 0 => .add
  | 0, 1 => .sub
  | 0, 2 => .or
  | 0, 3 => .and
  | 0, 4 => .slt
  | 0, 8 => .jr
  | 0, _ => .reserved
  | 1, _ => .addi
  | 2, _ => .j
  | 3, _ => .jal
  | 4, _ => .lw
  | 5, _ => .sw
  | 6, _ => .jeq
  | _, _ => .slti

/-- The masks and matches of R82, written out. -/
def tableOfR82 : List (Nat × Nat) :=
  [(0xE00F, 0x0000), (0xE00F, 0x0001), (0xE00F, 0x0002), (0xE00F, 0x0003), (0xE00F, 0x0004), (0xE00F, 0x0008),
   (0xE000, 0x2000), (0xE000, 0x4000), (0xE000, 0x6000), (0xE000, 0x8000), (0xE000, 0xA000), (0xE000, 0xC000),
   (0xE000, 0xE000)] ++
  [(0xE00F, 0x0005), (0xE00F, 0x0006), (0xE00F, 0x0007), (0xE00F, 0x0009), (0xE00F, 0x000A), (0xE00F, 0x000B),
   (0xE00F, 0x000C), (0xE00F, 0x000D), (0xE00F, 0x000E), (0xE00F, 0x000F)]

/-- A Word has mask and match of a row (R82). -/
def Matches (w : Word) (mask pattern : Nat) : Prop := w &&& BitVec.ofNat 16 mask = BitVec.ofNat 16 pattern

/-- The func values without a defined instruction (R72). -/
def reservedFuncs : List Nat := [5, 6, 7, 9, 10, 11, 12, 13, 14, 15]

/-- What the table of R77 and the abbreviations of R78 say of the Word of a line at address `addr`. -/
def Spells (addr : Nat) (l : AsmLine) (w : Word) : Prop :=
  match l with
  | .add d a b => ∃ rA rB rD, decode w = .add rA rB rD ∧ rA.toNat = a ∧ rB.toNat = b ∧ rD.toNat = d
  | .sub d a b => ∃ rA rB rD, decode w = .sub rA rB rD ∧ rA.toNat = a ∧ rB.toNat = b ∧ rD.toNat = d
  | .or d a b => ∃ rA rB rD, decode w = .or rA rB rD ∧ rA.toNat = a ∧ rB.toNat = b ∧ rD.toNat = d
  | .and d a b => ∃ rA rB rD, decode w = .and rA rB rD ∧ rA.toNat = a ∧ rB.toNat = b ∧ rD.toNat = d
  | .slt d a b => ∃ rA rB rD, decode w = .slt rA rB rD ∧ rA.toNat = a ∧ rB.toNat = b ∧ rD.toNat = d
  | .jr a => ∃ rA, decode w = .jr rA ∧ rA.toNat = a ∧ slice w 4 6 = 0#6
  | .addi d a imm => ∃ rA rB i, decode w = .addi rA rB i ∧ rA.toNat = a ∧ rB.toNat = d ∧ sx7 i = imm
  | .slti d a imm => ∃ rA rB i, decode w = .slti rA rB i ∧ rA.toNat = a ∧ rB.toNat = d ∧ sx7 i = imm
  | .lw d imm a => ∃ rA rB i, decode w = .lw rA rB i ∧ rA.toNat = a ∧ rB.toNat = d ∧ sx7 i = imm
  | .sw x imm a => ∃ rA rB i, decode w = .sw rA rB i ∧ rA.toNat = a ∧ rB.toNat = x ∧ sx7 i = imm
  | .jeq a b off => ∃ rA rB i, decode w = .jeq rA rB i ∧ rA.toNat = a ∧ rB.toNat = b ∧ sx7 i = off
  | .j t => ∃ i, decode w = .j i ∧ i.toNat = t
  | .jal t => ∃ i, decode w = .jal i ∧ i.toNat = t
  | .halt => ∃ i, decode w = .j i ∧ i.toNat = addr
  | .nop => w = 0x0000#16 ∧ decode w = .add 0#3 0#3 0#3
  | .fill v => w.toNat = v

end Sys2Proof.Claims

open Sys2Proof Sys2Proof.Machine Sys2Proof.Claims

/-! ## Reset and the loader -/

/-- R210: the reset state, for every `MEM_INIT`. -/
def Obligations.ResetStateHoldsZerosAndMemInit : Prop :=
  ∀ memInit : Nat → Word,
    (∀ r, (State.start memInit).readReg r = 0#16) ∧
    (State.start memInit).pc = 0#16 ∧
    ∀ a, a < 8192 → (State.start memInit).memRead a = memInit a

/-- The model's `State.reset` is the reset state whose `MEM_INIT` is all zero: the choice of log 6, the spec leaves the
parameter open (R6, D10). -/
def Obligations.ResetIsStartWithNothingLoaded : Prop :=
  State.reset = State.start (fun _ => 0#16)

/-- The canonical form (log 5) holds at reset. -/
def Obligations.ResetMemoryIsCanonical : Prop := State.reset.mem.wf

/-- The canonical form (log 5) holds at the start of every run, whatever was loaded. -/
def Obligations.LoadedMemoryIsCanonical : Prop := ∀ memInit : Nat → Word, (State.start memInit).mem.wf

/-- R174: a clock edge with reset asserted. -/
def Obligations.ResetInputClearsRegistersAndKeepsMemory : Prop :=
  ∀ s : State, (∀ r, (clockEdge true s).readReg r = 0#16) ∧ (clockEdge true s).pc = 0#16 ∧
    SameMem s (clockEdge true s)

/-! ## Memory -/

/-- The canonical form (log 5) is an invariant of the machine: from EVERY state that has it, a step gives one that has it. -/
def Obligations.EveryStepKeepsMemoryCanonical : Prop :=
  ∀ s t : State, s.mem.wf → step s = .next t → t.mem.wf

/-- What the canonical form is for (log 5): memories that read alike are equal data. -/
def Obligations.CanonicalMemoriesThatReadAlikeAreEqual : Prop :=
  ∀ m n : Memory, m.wf → n.wf → (∀ a, m.read a = n.read a) → m = n

/-- R42: all aliases of an index name the same Word, for the fetch, for lw and for sw; with the rule's worked example. -/
def Obligations.AliasesNameTheSameWord : Prop :=
  (∀ (m : Memory) (a k : Nat) (v : Word), m.read (a + 8192 * k) = m.read a ∧ m.write (a + 8192 * k) v = m.write a v) ∧
  (∀ s t : State, s.mem = t.mem → s.pc.toNat % 8192 = t.pc.toNat % 8192 → s.fetch = t.fetch) ∧
  (∀ (s t : State) (rA : RegIdx) (imm7 : Imm7) (k : Nat),
    t.readReg rA = s.readReg rA + BitVec.ofNat 16 (8192 * k) → dataIndex t rA imm7 = dataIndex s rA imm7) ∧
  (∀ (s : State) (rA : RegIdx) (imm7 : Imm7),
    (((s.readReg rA).toNat + sx7 imm7) % 65536) % 8192 = ((s.readReg rA).toNat + sx7 imm7) % 8192) ∧
  (∀ s : State, s.readReg 6#3 = 0xFFFF#16 → dataIndex s 6#3 18#7 = 17)

/-! ## Encoding and decoding -/

/-- Decode and encode agree, for every instruction with every operand the encoding admits. -/
def Obligations.DecodeOfEncodeIsTheInstruction : Prop := ∀ i : Instr, decode (encode i) = i

/-- R80: the fields tile the Word, and the encoder is the inverse of the decoder on the 13 instructions, up to the ignored bits of
jr, which it writes as 0 (R77). -/
def Obligations.FieldsTileTheWord : Prop :=
  (∀ w : Word, w = (slice w 13 3).setWidth 16 <<< 13 ||| (slice w 10 3).setWidth 16 <<< 10 |||
    (slice w 7 3).setWidth 16 <<< 7 ||| (slice w 4 3).setWidth 16 <<< 4 ||| (slice w 0 4).setWidth 16) ∧
  (∀ w : Word, w = (slice w 13 3).setWidth 16 <<< 13 ||| (slice w 10 3).setWidth 16 <<< 10 |||
    (slice w 7 3).setWidth 16 <<< 7 ||| (slice w 0 7).setWidth 16) ∧
  (∀ w : Word, w = (slice w 13 3).setWidth 16 <<< 13 ||| (slice w 0 13).setWidth 16) ∧
  (∀ w : Word, (decode w).wellFormed = true → ¬ Matches w 0xE00F 0x0008 → encode (decode w) = w) ∧
  (∀ w : Word, Matches w 0xE00F 0x0008 → encode (decode w) = w &&& 0xFC0F#16)

/-- The model's choice of log 8: a reserved-func word keeps its ignored bits, so that it too comes back from the encoder as it was. -/
def Obligations.ReservedWordsKeepTheirBits : Prop :=
  ∀ w : Word, w.toNat / 8192 = 0 → w.toNat % 16 ∈ reservedFuncs →
    (decode w).wellFormed = false ∧ encode (decode w) = w

/-- R71: jr is selected by opcode and func alone and ignores bits 9:4; every other instruction uses all its fields. -/
def Obligations.OnlyJrIgnoresBits : Prop :=
  (∀ w : Word, Matches w 0xE00F 0x0008 → decode w = .jr (slice w 10 3)) ∧
  (∀ v w : Word, Matches v 0xE00F 0x0008 → v &&& 0xFC0F#16 = w &&& 0xFC0F#16 → decode w = decode v) ∧
  (∀ v w : Word, (decode v).wellFormed = true → ¬ Matches v 0xE00F 0x0008 → decode v = decode w → v = w)

/-- R82: the rows have the masks and matches of the rule, and every Word matches one row and no other, that of the instruction it
decodes to. -/
def Obligations.EveryWordMatchesExactlyOneRow : Prop :=
  (opcodeTable.map fun row => (row.mask.toNat, row.pattern.toNat)) = tableOfR82 ∧
  ∀ w : Word, (decode w).row ∈ opcodeTable ∧
    ∀ row ∈ opcodeTable, (w &&& row.mask = row.pattern ↔ row = (decode w).row)

/-- R91: the bundle `Decode(w, pc)`, field by field, and the same tag for the instruction that `decode` reads. -/
def Obligations.DecodedBundleIsThatOfTheRule : Prop :=
  ∀ w pc : Word,
    (decodeBundle w pc).tag = tagOfNumbers (w.toNat / 8192) (w.toNat % 16) ∧
    (decodeBundle w pc).rA = slice w 10 3 ∧ (decodeBundle w pc).rB = slice w 7 3 ∧
    (decodeBundle w pc).rD = slice w 4 3 ∧ (decodeBundle w pc).imm7 = slice w 0 7 ∧
    (decodeBundle w pc).imm13 = slice w 0 13 ∧
    ((decodeBundle w pc).halt = true ↔ w.toNat / 8192 = 2 ∧ w.toNat % 8192 = pc.toNat) ∧
    tagOf (decode w) = (decodeBundle w pc).tag

/-- R61: the bit-field extractor. -/
def Obligations.ExtractIsDivisionAndRemainder : Prop :=
  ∀ (w : Word) (pos width : Nat) (h : pos + width ≤ 16),
    (extract w pos width h).toNat = w.toNat / 2 ^ pos % 2 ^ width

/-- R62: sign extension, its value, its range, and the way back from the encoding of a signed value. -/
def Obligations.SignExtendIsTwosComplement : Prop :=
  ∀ (n : Nat) (h : 1 ≤ n ∧ n ≤ 15),
    (∀ v : BitVec n, signExtend n v h = if v.toNat < 2 ^ (n - 1) then (v.toNat : Int) else v.toNat - 2 ^ n) ∧
    (∀ v : BitVec n, -2 ^ (n - 1) ≤ signExtend n v h ∧ signExtend n v h < 2 ^ (n - 1)) ∧
    (∀ z : Int, -2 ^ (n - 1) ≤ z → z < 2 ^ (n - 1) → signExtend n (BitVec.ofInt n z) h = z) ∧
    (∀ v : Imm7, sext7 v = sx7 v)

/-- The notation of R77 and R78: a line that assembles decodes to what it says, and every defined instruction has a line. The
operand orders are the spec's decision D14 (log 16). -/
def Obligations.AssembledLinesDecodeAsWritten : Prop :=
  (∀ (addr : Nat) (l : AsmLine) (w : Word), assemble addr l = some w → Spells addr l w) ∧
  (∀ i : Instr, i.wellFormed = true → ∃ l, assemble 0 l = some (encode i))

/-- Some Words of 95_test_vectors.md 2.1, at least one for each family, decode to the instructions listed there. -/
def Obligations.ListedWordsDecodeAsListed : Prop :=
  decode 0x08F1#16 = .sub 2#3 1#3 7#3 ∧ decode 0x0534#16 = .slt 1#3 2#3 3#3 ∧ decode 0x1FF8#16 = .jr 7#3 ∧
  decode 0x24FF#16 = .addi 1#3 1#3 0x7F#7 ∧ decode 0xEB7F#16 = .slti 2#3 6#3 0x7F#7 ∧
  decode 0x860C#16 = .lw 1#3 4#3 12#7 ∧ decode 0xB912#16 = .sw 6#3 2#3 18#7 ∧
  decode 0xC403#16 = .jeq 1#3 0#3 3#7 ∧ decode 0x5FFF#16 = .j 8191#13 ∧ decode 0x6005#16 = .jal 5#13 ∧
  decode 0x1FFF#16 = .reserved15 0x1FF#9

/-! ## Registers -/

/-- R22: register 0 reads 0 in every state and a write to it changes nothing. -/
def Obligations.RegisterZeroIsHardwired : Prop :=
  ∀ s : State, s.readReg 0#3 = 0#16 ∧ ∀ v, s.writeReg 0#3 v = s

/-- R99, R134: an instruction whose destination is register 0 only advances the pc. -/
def Obligations.DestinationZeroOnlyAdvancesThePc : Prop :=
  ∀ (i : Instr) (s : State), destination i = some 0#3 → exec i s = .next { s with pc := s.pc + 1#16 }

/-! ## The instructions: encoding, completion, result and frame -/

/-- R111. -/
def Obligations.AddWritesTheSum : Prop :=
  (∀ w : Word, Matches w 0xE00F 0x0000 → decode w = .add (slice w 10 3) (slice w 7 3) (slice w 4 3)) ∧
  ∀ (rA rB rD : RegIdx) (s : State), ∃ t, exec (.add rA rB rD) s = .next t ∧
    Computes s t rD (BitVec.ofNat 16 (((s.readReg rA).toNat + (s.readReg rB).toNat) % 65536))

/-- R112. -/
def Obligations.SubWritesTheDifference : Prop :=
  (∀ w : Word, Matches w 0xE00F 0x0001 → decode w = .sub (slice w 10 3) (slice w 7 3) (slice w 4 3)) ∧
  ∀ (rA rB rD : RegIdx) (s : State), ∃ t, exec (.sub rA rB rD) s = .next t ∧
    Computes s t rD (BitVec.ofInt 16 (((s.readReg rA).toNat - (s.readReg rB).toNat) % 65536))

/-- R113. -/
def Obligations.OrWritesTheBitwiseOr : Prop :=
  (∀ w : Word, Matches w 0xE00F 0x0002 → decode w = .or (slice w 10 3) (slice w 7 3) (slice w 4 3)) ∧
  ∀ (rA rB rD : RegIdx) (s : State), ∃ t v, exec (.or rA rB rD) s = .next t ∧ Computes s t rD v ∧
    ∀ i, i < 16 → v.getLsbD i = ((s.readReg rA).getLsbD i || (s.readReg rB).getLsbD i)

/-- R114. -/
def Obligations.AndWritesTheBitwiseAnd : Prop :=
  (∀ w : Word, Matches w 0xE00F 0x0003 → decode w = .and (slice w 10 3) (slice w 7 3) (slice w 4 3)) ∧
  ∀ (rA rB rD : RegIdx) (s : State), ∃ t v, exec (.and rA rB rD) s = .next t ∧ Computes s t rD v ∧
    ∀ i, i < 16 → v.getLsbD i = ((s.readReg rA).getLsbD i && (s.readReg rB).getLsbD i)

/-- R115: unsigned. -/
def Obligations.SltComparesUnsigned : Prop :=
  (∀ w : Word, Matches w 0xE00F 0x0004 → decode w = .slt (slice w 10 3) (slice w 7 3) (slice w 4 3)) ∧
  ∀ (rA rB rD : RegIdx) (s : State), ∃ t, exec (.slt rA rB rD) s = .next t ∧
    Computes s t rD (if (s.readReg rA).toNat < (s.readReg rB).toNat then 1#16 else 0#16)

/-- R121. -/
def Obligations.AddiWritesTheSumWithTheImmediate : Prop :=
  (∀ w : Word, Matches w 0xE000 0x2000 → decode w = .addi (slice w 10 3) (slice w 7 3) (slice w 0 7)) ∧
  ∀ (rA rB : RegIdx) (imm7 : Imm7) (s : State), ∃ t, exec (.addi rA rB imm7) s = .next t ∧
    Computes s t rB (BitVec.ofInt 16 (((s.readReg rA).toNat + sx7 imm7) % 65536))

/-- R122: signed. -/
def Obligations.SltiComparesSigned : Prop :=
  (∀ w : Word, Matches w 0xE000 0xE000 → decode w = .slti (slice w 10 3) (slice w 7 3) (slice w 0 7)) ∧
  ∀ (rA rB : RegIdx) (imm7 : Imm7) (s : State), ∃ t, exec (.slti rA rB imm7) s = .next t ∧
    Computes s t rB (if signedValue (s.readReg rA) < sx7 imm7 then 1#16 else 0#16)

/-- R131. -/
def Obligations.LwLoadsTheWord : Prop :=
  (∀ w : Word, Matches w 0xE000 0x8000 → decode w = .lw (slice w 10 3) (slice w 7 3) (slice w 0 7)) ∧
  ∀ (rA rB : RegIdx) (imm7 : Imm7) (s : State), ∃ t, exec (.lw rA rB imm7) s = .next t ∧
    Computes s t rB (s.memRead (((s.readReg rA).toNat + sx7 imm7) % 8192).toNat)

/-- R132: the store goes to `dataIndex`, which is the index of the rule, and to no other. -/
def Obligations.SwStoresTheWord : Prop :=
  (∀ w : Word, Matches w 0xE000 0xA000 → decode w = .sw (slice w 10 3) (slice w 7 3) (slice w 0 7)) ∧
  ∀ (rA rB : RegIdx) (imm7 : Imm7) (s : State),
    (dataIndex s rA imm7 : Int) = ((s.readReg rA).toNat + sx7 imm7) % 8192 ∧
    ∃ t, exec (.sw rA rB imm7) s = .next t ∧ SameRegs s t ∧ PcPlusOne s t ∧
      ∀ a, t.memRead a = if a % 8192 = dataIndex s rA imm7 then s.readReg rB else s.memRead a

/-- R141. -/
def Obligations.JrJumpsToTheRegister : Prop :=
  (∀ w : Word, Matches w 0xE00F 0x0008 → decode w = .jr (slice w 10 3)) ∧
  ∀ (rA : RegIdx) (s : State), ∃ t, exec (.jr rA) s = .next t ∧ t.pc = s.readReg rA ∧ SameRegs s t ∧ SameMem s t

/-- R142. -/
def Obligations.JeqBranchesOnEquality : Prop :=
  (∀ w : Word, Matches w 0xE000 0xC000 → decode w = .jeq (slice w 10 3) (slice w 7 3) (slice w 0 7)) ∧
  ∀ (rA rB : RegIdx) (imm7 : Imm7) (s : State), ∃ t, exec (.jeq rA rB imm7) s = .next t ∧
    (t.pc.toNat : Int) = (if s.readReg rA = s.readReg rB then (s.pc.toNat + 1 + sx7 imm7) % 65536
      else (s.pc.toNat + 1) % 65536) ∧
    SameRegs s t ∧ SameMem s t

/-- R143: a j that is not the halt convention. -/
def Obligations.JJumpsToTheTarget : Prop :=
  (∀ w : Word, Matches w 0xE000 0x4000 → decode w = .j (slice w 0 13)) ∧
  ∀ (imm13 : Imm13) (s : State), imm13.toNat ≠ s.pc.toNat →
    ∃ t, exec (.j imm13) s = .next t ∧ t.pc.toNat = imm13.toNat ∧ SameRegs s t ∧ SameMem s t

/-- R145: the halt convention. The step's outcome is `Halt` and the clock edge changes nothing; `0x4000 + a` is its Word at
address `a`; at a pc of 8192 or more no Word is a halt. -/
def Obligations.SelfJumpHalts : Prop :=
  (∀ s : State, s.fetch.toNat / 8192 = 2 → s.fetch.toNat % 8192 = s.pc.toNat →
    specStep s = .halt ∧ clockEdge false s = s) ∧
  (∀ s : State, specStep s = .halt → s.fetch = 0x4000#16 + s.pc ∧ s.pc.toNat < 8192)

/-- R144. -/
def Obligations.JalLinksAndJumps : Prop :=
  (∀ w : Word, Matches w 0xE000 0x6000 → decode w = .jal (slice w 0 13)) ∧
  ∀ (imm13 : Imm13) (s : State), ∃ t, exec (.jal imm13) s = .next t ∧
    OnlyRegister s t 7#3 (BitVec.ofNat 16 ((s.pc.toNat + 1) % 65536)) ∧ t.pc.toNat = imm13.toNat ∧ SameMem s t

/-- R146: a reserved-func Word, whatever its other bits. The step's outcome is `Stall` and the clock edge changes nothing. -/
def Obligations.ReservedFuncStalls : Prop :=
  ∀ s : State, s.fetch.toNat / 8192 = 0 → s.fetch.toNat % 16 ∈ reservedFuncs →
    specStep s = .stall ∧ clockEdge false s = s

/-- The model's choice of logs 1 and 2: a halting j and the ten reserved words answer the very same state as the next one. -/
def Obligations.HaltAndReservedAnswerTheSameState : Prop :=
  (∀ (imm13 : Imm13) (s : State), imm13.toNat = s.pc.toNat → exec (.j imm13) s = .next s) ∧
  ∀ (x : BitVec 9) (s : State),
    exec (.reserved5 x) s = .next s ∧ exec (.reserved6 x) s = .next s ∧ exec (.reserved7 x) s = .next s ∧
    exec (.reserved9 x) s = .next s ∧ exec (.reserved10 x) s = .next s ∧ exec (.reserved11 x) s = .next s ∧
    exec (.reserved12 x) s = .next s ∧ exec (.reserved13 x) s = .next s ∧ exec (.reserved14 x) s = .next s ∧
    exec (.reserved15 x) s = .next s

/-! ## All instructions at once -/

/-- Every instruction, in every state, answers a next state. What the spec says is that there is no exception (R190); R9 and R10
say that `Halt` and `Stall` are not a next state. That a halting j and the ten reserved words answer one all the same is the
model's choice (logs 1 and 2), and that no fault and no refusal is left is the model's inference (log 9). -/
def Obligations.EveryInstructionCompletesInEveryState : Prop :=
  ∀ (i : Instr) (s : State), ∃ t, exec i s = .next t

/-- R23, R54, R70: no instruction changes a register but its destination, or a Word of memory but the one it stores to. -/
def Obligations.NothingElseChanges : Prop :=
  ∀ (i : Instr) (s t : State), exec i s = .next t →
    (∀ r, destination i ≠ some r → t.readReg r = s.readReg r) ∧
    (∀ a, storeIndex s i ≠ some (a % 8192) → t.memRead a = s.memRead a)

/-- R26: the new pc of every instruction. -/
def Obligations.NewPcIsThatOfTheTable : Prop :=
  ∀ (i : Instr) (s t : State), exec i s = .next t → (t.pc.toNat : Int) = newPc s i

/-- 92_eei_decisions.md, "Recommended premise": a pc of 8192 or more arises from a pc below it only in the ways listed there. -/
def Obligations.PcLeavesMemoryOnlyAsListed : Prop :=
  ∀ s t : State, s.pc.toNat < 8192 → step s = .next t → 8192 ≤ t.pc.toNat →
    (∃ rA, decode s.fetch = .jr rA ∧ 8192 ≤ (s.readReg rA).toNat) ∨
    (∃ rA rB imm7, decode s.fetch = .jeq rA rB imm7 ∧ s.readReg rA = s.readReg rB ∧
      ((s.pc.toNat : Int) + 1 + sx7 imm7 < 0 ∨ 8192 ≤ (s.pc.toNat : Int) + 1 + sx7 imm7)) ∨
    s.pc.toNat = 8191

/-- R46, R20: a step depends on memory through the fetched Word and, for lw, the loaded Word alone. -/
def Obligations.StepReadsOnlyTheFetchedAndLoadedWord : Prop :=
  ∀ s t s' t' : State, s.regs = t.regs → s.pc = t.pc → s.fetch = t.fetch →
    (∀ rA rB imm7, decode s.fetch = .lw rA rB imm7 →
      s.memRead (dataIndex s rA imm7) = t.memRead (dataIndex t rA imm7)) →
    step s = .next s' → step t = .next t' →
    s'.regs = t'.regs ∧ s'.pc = t'.pc ∧ ∀ a, s.memRead a = t.memRead a → s'.memRead a = t'.memRead a

/-! ## Two instructions in a row -/

/-- R49, R132: a load of the stored address into another register reproduces the stored value. -/
def Obligations.StoreThenLoadReturnsTheValue : Prop :=
  ∀ (rA rB rC : RegIdx) (imm7 : Imm7) (s s1 : State), rC ≠ 0#3 → exec (.sw rA rB imm7) s = .next s1 →
    ∃ s2, exec (.lw rA rC imm7) s1 = .next s2 ∧ s2.readReg rC = s.readReg rB

/-- R52: the step after a store runs the stored Word if it fetches it, and the storing step itself ran as it was fetched. -/
def Obligations.StoredWordIsTheNextFetched : Prop :=
  ∀ (rA rB : RegIdx) (imm7 : Imm7) (s t : State), decode s.fetch = .sw rA rB imm7 → step s = .next t →
    (∀ a, t.memRead a = if a % 8192 = dataIndex s rA imm7 then s.readReg rB else s.memRead a) ∧
    (t.pc.toNat % 8192 = dataIndex s rA imm7 → step t = exec (decode (s.readReg rB)) t)

/-- R148: `jr $7` returns to the instruction after the jal, while register 7 keeps the link. -/
def Obligations.JrSevenReturnsFromJal : Prop :=
  ∀ (imm13 : Imm13) (s s1 s2 : State), exec (.jal imm13) s = .next s1 → s2.readReg 7#3 = s1.readReg 7#3 →
    ∃ u, exec (.jr 7#3) s2 = .next u ∧ u.pc.toNat = (s.pc.toNat + 1) % 65536

/-- R94: a j fetched through an aliased pc is executed, not a halt; the same Word then halts at the pc it jumped to. -/
def Obligations.AliasedSelfJumpRunsThenHalts : Prop :=
  (∀ w pc : Word, w.toNat / 8192 = 2 → ((decodeBundle w pc).halt = true ↔ w.toNat % 8192 = pc.toNat)) ∧
  (∀ s : State, 8192 ≤ s.pc.toNat → specStep s ≠ .halt) ∧
  ∀ (s : State) (imm13 : Imm13), 8192 ≤ s.pc.toNat → decode s.fetch = .j imm13 →
    imm13.toNat = s.pc.toNat % 8192 →
    ∃ t, step s = .next t ∧ t.pc.toNat = imm13.toNat ∧ SameRegs s t ∧ SameMem s t ∧
      t.fetch = s.fetch ∧ specStep t = .halt

/-! ## Steps, the hardware view, and runs -/

/-- R90, R95: a step runs the instruction that the Word at `pc mod 8192` decodes to, and adds nothing around it. What `exec`
answers for a halting j and for a reserved word is the model's choice (logs 1 and 2). -/
def Obligations.StepRunsTheDecodedInstruction : Prop :=
  ∀ (s : State) (i : Instr), decode (s.memRead (s.pc.toNat % 8192)) = i → step s = exec i s

/-- An instruction stored by `withFetchWord`, the stand-in for a load (log 10), is the next one to run. -/
def Obligations.WithFetchWordRunsNext : Prop :=
  ∀ (s : State) (w : Nat), w < 65536 →
    step (s.withFetchWord 16 w) = exec (decode (BitVec.ofNat 16 w)) (s.withFetchWord 16 w) ∧
    SameRegs s (s.withFetchWord 16 w) ∧ (s.withFetchWord 16 w).pc = s.pc

/-- The hardware view (bundle, selection table, ports: R160 to R178) gives at a clock edge the state that `step` answers. That `step`
answers a next state where the outcome is `Halt` or `Stall` is the model's choice (logs 1 and 2), as is `none` for the
selections the table leaves open (log 11). -/
def Obligations.HardwareViewEqualsTheStep : Prop := ∀ s : State, step s = .next (clockEdge false s)

/-- R10, R95: the three outcomes against `step`. That `step` answers the same state for `Halt` and `Stall` is the model's choice
(logs 1 and 2). -/
def Obligations.StepAgreesWithTheThreeOutcomes : Prop :=
  ∀ s : State,
    (∀ t, specStep s = .next t → step s = .next t ∧ s.halted = false ∧ s.stalled = false) ∧
    (specStep s = .halt → step s = .next s ∧ s.halted = true) ∧
    (specStep s = .stall → step s = .next s ∧ s.stalled = true) ∧
    ¬ (s.halted = true ∧ s.stalled = true)

/-- R104: `Halt` and `Stall` are fixed points. -/
def Obligations.HaltAndStallAreFixedPoints : Prop :=
  ∀ s t : State, Reaches s t →
    (specStep s = .halt → t = s ∧ specStep t = .halt) ∧ (specStep s = .stall → t = s ∧ specStep t = .stall)

/-- R203: every run is of exactly one of the three classes. -/
def Obligations.EveryRunIsOfExactlyOneClass : Prop :=
  ∀ s : State, (Terminates s ∨ StallsForEver s ∨ Diverges s) ∧ ¬ (Terminates s ∧ StallsForEver s) ∧
    ¬ (Terminates s ∧ Diverges s) ∧ ¬ (StallsForEver s ∧ Diverges s)

/-- R100, R223: the run under fuel finds the final state exactly when the run terminates, and more fuel does not change it. -/
def Obligations.RunUnderFuelFindsTheFinalState : Prop :=
  (∀ (n m : Nat) (s t : State), n ≤ m → runToHalt n s = .halted t → runToHalt m s = .halted t) ∧
  (∀ s : State, Terminates s ↔ ∃ n t, runToHalt n s = .halted t) ∧
  (∀ (n : Nat) (s t : State), runToHalt n s = .halted t → Reaches s t ∧ specStep t = .halt)

/-- R93, R149: a jal or a jr to itself, and a taken jeq with offset -1, loop for ever without halting. -/
def Obligations.SelfLoopsOtherThanJNeverHalt : Prop :=
  ∀ s : State,
    (∃ imm13, decode s.fetch = .jal imm13 ∧ imm13.toNat = s.pc.toNat) ∨
    (∃ rA, decode s.fetch = .jr rA ∧ s.readReg rA = s.pc) ∨
    (∃ rA rB imm7, decode s.fetch = .jeq rA rB imm7 ∧ sx7 imm7 = -1 ∧ s.readReg rA = s.readReg rB) →
    Diverges s

/-- R36: what the reporter reads of a halted core, and that it reads nothing before. -/
def Obligations.ReportReadsTheWholeHaltedState : Prop :=
  ∀ s : State,
    (s.halted = false → report s = none) ∧
    (s.halted = true → ∃ rep, report s = some rep ∧ rep.pc = s.pc ∧ rep.registers.length = 8 ∧
      (∀ r : RegIdx, rep.registers[r.toNat]? = some (s.readReg r)) ∧ rep.registers[0]? = some 0#16 ∧
      rep.memory.length = 8192 ∧ ∀ a, a < 8192 → rep.memory[a]? = some (s.memRead a))
end

