-- ==== Sys2Proof/Laws/Encoding.lean ====
section
/-! SUPPORT. Fields put in a Word come out again (30_encoding.md R61, R80). -/

namespace Sys2Proof

/-- One bit of a Word built by `place` (R80). -/
theorem place_getElem {n : Nat} (v : BitVec n) (pos k : Nat) (hk : k < 16) :
    (place v pos)[k] = (!decide (k < pos) && v.getLsbD (k - pos)) := by
  by_cases h : k < pos <;> simp [place, h]

/-- One bit of a field (R61). -/
theorem extract_getLsbD (w : Word) (pos n k : Nat) (h : pos + n ≤ 16) :
    (extract w pos n h).getLsbD k = (decide (k < n) && w.getLsbD (pos + k)) := by
  simp [extract, BitVec.getLsbD_extractLsb']

/-- The same, for a position inside the field. -/
theorem extract_getElem (w : Word) (pos n k : Nat) (h : pos + n ≤ 16) (hk : k < n) :
    (extract w pos n h)[k] = w.getLsbD (pos + k) := by
  simp [extract]

/-- A field is known by its bits (R61). -/
theorem extract_eq (w : Word) (pos n : Nat) (h : pos + n ≤ 16) (v : BitVec n)
    (bits : ∀ k, k < n → w.getLsbD (pos + k) = v.getLsbD k) : extract w pos n h = v := by
  apply BitVec.eq_of_getLsbD_eq
  intro k hk
  rw [extract_getLsbD, bits k hk]
  simp [hk]

/-- A field by division and remainder (R61). -/
theorem extract_toNat (w : Word) (pos n : Nat) (h : pos + n ≤ 16) :
    (extract w pos n h).toNat = w.toNat / 2 ^ pos % 2 ^ n := by
  simp [extract, Nat.shiftRight_eq_div_pow]

/-- The field of a masked Word is the masked field. -/
theorem extract_and (v w : Word) (pos n : Nat) (h : pos + n ≤ 16) :
    extract (v &&& w) pos n h = extract v pos n h &&& extract w pos n h := by
  apply BitVec.eq_of_getLsbD_eq
  intro k hk
  simp [extract_getLsbD]
  grind

/-! ## The masks of R82 -/

/-- What the mask of an RRI or J row keeps of a Word: its opcode. -/
theorem and_opcodeMask (w : Word) : w &&& 0xE000#16 = place (extract w 13 3) 13 := by
  apply BitVec.eq_of_getLsbD_eq
  intro k hk
  interval_cases k <;> simp [place_getElem, extract_getElem]

/-- What the mask of an opcode-000 row keeps of a Word: its opcode and its func. -/
theorem and_funcMask (w : Word) : w &&& 0xE00F#16 = place (extract w 13 3) 13 ||| place (extract w 0 4) 0 := by
  apply BitVec.eq_of_getLsbD_eq
  intro k hk
  interval_cases k <;> simp [place_getElem, extract_getElem]

/-- A Word matches an RRI or J row when it has the row's opcode. -/
theorem matches_opcode (w : Word) (op : BitVec 3) : w &&& 0xE000#16 = place op 13 ↔ extract w 13 3 = op := by
  rw [and_opcodeMask]
  refine ⟨fun h => ?_, fun h => by rw [h]⟩
  have back : ∀ v : BitVec 3, extract (place v 13) 13 3 = v := by decide
  rw [← back (extract w 13 3), h, back]

/-- A Word matches an opcode-000 row when its opcode is 000 and it has the row's func. -/
theorem matches_func (w : Word) (func : BitVec 4) :
    w &&& 0xE00F#16 = place func 0 ↔ extract w 13 3 = 0#3 ∧ extract w 0 4 = func := by
  rw [and_funcMask]
  refine ⟨fun h => ?_, fun h => by rw [h.1, h.2]; simp [place]⟩
  have op : ∀ v : BitVec 3, ∀ f : BitVec 4, extract (place v 13 ||| place f 0) 13 3 = v := by decide
  have fn : ∀ v : BitVec 3, ∀ f : BitVec 4, extract (place v 13 ||| place f 0) 0 4 = f := by decide
  have op0 : ∀ f : BitVec 4, extract (place f 0) 13 3 = 0#3 := by decide
  have fn0 : ∀ f : BitVec 4, extract (place f 0) 0 4 = f := by decide
  exact ⟨by rw [← op (extract w 13 3) (extract w 0 4), h, op0], by rw [← fn (extract w 13 3) (extract w 0 4), h, fn0]⟩

/-! ## The fields of an encoded Word -/

/-- Format RRR, field by field (R64). -/
theorem extract_formatRRR (rA rB rD : RegIdx) (func : BitVec 4) :
    extract (formatRRR rA rB rD func) 13 3 = 0#3 ∧ extract (formatRRR rA rB rD func) 10 3 = rA ∧
    extract (formatRRR rA rB rD func) 7 3 = rB ∧ extract (formatRRR rA rB rD func) 4 3 = rD ∧
    extract (formatRRR rA rB rD func) 0 4 = func := by
  refine ⟨?_, ?_, ?_, ?_, ?_⟩ <;> apply extract_eq <;> intro k hk <;> interval_cases k <;>
    simp [formatRRR, place_getElem]

/-- Format RRI, field by field (R65). -/
theorem extract_formatRRI (opcode : BitVec 3) (rA rB : RegIdx) (imm7 : Imm7) :
    extract (formatRRI opcode rA rB imm7) 13 3 = opcode ∧ extract (formatRRI opcode rA rB imm7) 10 3 = rA ∧
    extract (formatRRI opcode rA rB imm7) 7 3 = rB ∧ extract (formatRRI opcode rA rB imm7) 0 7 = imm7 := by
  refine ⟨?_, ?_, ?_, ?_⟩ <;> apply extract_eq <;> intro k hk <;> interval_cases k <;>
    simp [formatRRI, place_getElem]

/-- Format J, field by field (R66). -/
theorem extract_formatJ (opcode : BitVec 3) (imm13 : Imm13) :
    extract (formatJ opcode imm13) 13 3 = opcode ∧ extract (formatJ opcode imm13) 0 13 = imm13 := by
  refine ⟨?_, ?_⟩ <;> apply extract_eq <;> intro k hk <;> interval_cases k <;> simp [formatJ, place_getElem]

/-- A reserved-func word, field by field (R72). -/
theorem extract_formatReserved (ignored : BitVec 9) (func : BitVec 4) :
    extract (formatReserved ignored func) 13 3 = 0#3 ∧ extract (formatReserved ignored func) 4 9 = ignored ∧
    extract (formatReserved ignored func) 0 4 = func := by
  refine ⟨?_, ?_, ?_⟩ <;> apply extract_eq <;> intro k hk <;> interval_cases k <;>
    simp [formatReserved, place_getElem]

/-! ## The case splits of the decoder -/

/-- The eight opcodes (R67). -/
theorem opcode_cases (v : BitVec 3) :
    v = 0#3 ∨ v = 1#3 ∨ v = 2#3 ∨ v = 3#3 ∨ v = 4#3 ∨ v = 5#3 ∨ v = 6#3 ∨ v = 7#3 := by
  revert v; decide

/-- The sixteen func values (R68, R72). -/
theorem func_cases (v : BitVec 4) :
    v = 0#4 ∨ v = 1#4 ∨ v = 2#4 ∨ v = 3#4 ∨ v = 4#4 ∨ v = 5#4 ∨ v = 6#4 ∨ v = 7#4 ∨ v = 8#4 ∨ v = 9#4 ∨
    v = 10#4 ∨ v = 11#4 ∨ v = 12#4 ∨ v = 13#4 ∨ v = 14#4 ∨ v = 15#4 := by
  revert v; decide

/-! ## The Words of the encoder against the masks -/

/-- The mask of an opcode-000 row keeps the func of an RRR word (R64, R82). -/
theorem formatRRR_masked (rA rB rD : RegIdx) (func : BitVec 4) :
    formatRRR rA rB rD func &&& 0xE00F#16 = place func 0 := by
  apply BitVec.eq_of_getLsbD_eq
  intro k hk
  interval_cases k <;> simp [formatRRR, place_getElem]

/-- The same of a reserved-func word (R72, R82). -/
theorem formatReserved_masked (ignored : BitVec 9) (func : BitVec 4) :
    formatReserved ignored func &&& 0xE00F#16 = place func 0 := by
  apply BitVec.eq_of_getLsbD_eq
  intro k hk
  interval_cases k <;> simp [formatReserved, place_getElem]

/-- The mask of an RRI row keeps the opcode (R65, R82). -/
theorem formatRRI_masked (opcode : BitVec 3) (rA rB : RegIdx) (imm7 : Imm7) :
    formatRRI opcode rA rB imm7 &&& 0xE000#16 = place opcode 13 := by
  apply BitVec.eq_of_getLsbD_eq
  intro k hk
  interval_cases k <;> simp [formatRRI, place_getElem]

/-- The mask of a J row keeps the opcode (R66, R82). -/
theorem formatJ_masked (opcode : BitVec 3) (imm13 : Imm13) :
    formatJ opcode imm13 &&& 0xE000#16 = place opcode 13 := by
  apply BitVec.eq_of_getLsbD_eq
  intro k hk
  interval_cases k <;> simp [formatJ, place_getElem]

end Sys2Proof
end

