-- ==== Sys2Proof/Laws/State.lean ====
section
/-! SUPPORT. One lemma per field and per view for each update of the state, all true by rfl. -/

namespace Sys2Proof.Machine

variable (s : State) (r : RegIdx) (v t : Word) (a : Nat)

@[simp] theorem writeReg_regs : (s.writeReg r v).regs = s.regs.write r v := rfl
@[simp] theorem writeReg_pc : (s.writeReg r v).pc = s.pc := rfl
@[simp] theorem writeReg_mem : (s.writeReg r v).mem = s.mem := rfl
@[simp] theorem writeReg_memRead : (s.writeReg r v).memRead a = s.memRead a := rfl

@[simp] theorem memWrite_regs : (s.memWrite a v).regs = s.regs := rfl
@[simp] theorem memWrite_pc : (s.memWrite a v).pc = s.pc := rfl
@[simp] theorem memWrite_mem : (s.memWrite a v).mem = s.mem.write a v := rfl
@[simp] theorem memWrite_readReg : (s.memWrite a v).readReg r = s.readReg r := rfl

@[simp] theorem setPc_regs : (s.setPc t).regs = s.regs := rfl
@[simp] theorem setPc_pc : (s.setPc t).pc = t := rfl
@[simp] theorem setPc_mem : (s.setPc t).mem = s.mem := rfl
@[simp] theorem setPc_readReg : (s.setPc t).readReg r = s.readReg r := rfl
@[simp] theorem setPc_memRead : (s.setPc t).memRead a = s.memRead a := rfl

@[simp] theorem advance_regs : s.advance.regs = s.regs := rfl
@[simp] theorem advance_pc : s.advance.pc = s.pc + 1#16 := rfl
@[simp] theorem advance_mem : s.advance.mem = s.mem := rfl
@[simp] theorem advance_readReg : s.advance.readReg r = s.readReg r := rfl
@[simp] theorem advance_memRead : s.advance.memRead a = s.memRead a := rfl

@[simp] theorem assertReset_regs : s.assertReset.regs = RegFile.zero := rfl
@[simp] theorem assertReset_pc : s.assertReset.pc = Config.resetPc := rfl
@[simp] theorem assertReset_mem : s.assertReset.mem = s.mem := rfl

@[simp] theorem loaderWrite_regs : (s.loaderWrite a v).regs = s.regs := rfl
@[simp] theorem loaderWrite_pc : (s.loaderWrite a v).pc = s.pc := rfl
@[simp] theorem loaderWrite_mem : (s.loaderWrite a v).mem = s.mem.write a v := rfl

end Sys2Proof.Machine
end

