-- ==== Sys2Proof/Laws/Memory.lean ====
section
/-! SUPPORT. What memory answers after a write, and that every operation keeps the canonical form (20_memory.md R41). -/

namespace Sys2Proof.Machine

/-! ## Reading -/

theorem Memory.cellAt_without (m : Memory) (i j : Nat) :
    (m.without i).cellAt j = if j = i then Config.undeclaredWord else m.cellAt j := by
  induction m with
  | nil => simp [Memory.without, Memory.cellAt]
  | cons c m ih =>
    simp only [Memory.without] at ih ⊢
    by_cases hc : c.1 = i
    · simp only [hc, List.filter_cons, bne_self_eq_false, Bool.false_eq_true, ↓reduceIte, ih, Memory.cellAt]
      grind
    · simp only [List.filter_cons, bne_iff_ne, ne_eq, hc, not_false_eq_true, ↓reduceIte, Memory.cellAt, ih]
      grind

theorem Memory.cellAt_insertCell (m : Memory) (i j : Nat) (v : Word)
    (fresh : ∀ c ∈ m, c.1 ≠ i) :
    (Memory.insertCell i v m).cellAt j = if j = i then v else m.cellAt j := by
  induction m with
  | nil => simp [Memory.insertCell, Memory.cellAt, eq_comm]
  | cons c m ih =>
    have hc : c.1 ≠ i := fresh c List.mem_cons_self
    have ih := ih fun d hd => fresh d (List.mem_cons_of_mem _ hd)
    unfold Memory.insertCell
    split
    · simp only [Memory.cellAt, ih]; grind
    · simp only [Memory.cellAt]; grind

theorem Memory.without_fresh (m : Memory) (i : Nat) : ∀ c ∈ m.without i, c.1 ≠ i := by
  intro c hc
  simpa using (List.mem_filter.mp hc).2

/-- A read after a write: the Word written at its index, and every other index as before (R41). -/
theorem Memory.read_write (m : Memory) (a b : Nat) (v : Word) :
    (m.write a v).read b = if b % 8192 = a % 8192 then v else m.read b := by
  unfold Memory.read Memory.write
  split
  · next h => simp only [Memory.cellAt_without, wrapIndex, h]
  · simp only [Memory.cellAt_insertCell _ _ _ _ (Memory.without_fresh m _), Memory.cellAt_without, wrapIndex]
    grind

/-- The same, of a state. -/
theorem memRead_memWrite (s : State) (a b : Nat) (v : Word) :
    (s.memWrite a v).memRead b = if b % 8192 = a % 8192 then v else s.memRead b :=
  Memory.read_write s.mem a b v

/-- A read looks at the index modulo 8192 alone (R42). -/
theorem Memory.read_mod (m : Memory) (a : Nat) : m.read (a % 8192) = m.read a := by
  simp [Memory.read, wrapIndex]

/-! ## The canonical form -/

theorem Memory.wf_nil : Memory.wf [] := by simp [Memory.wf]

theorem Memory.without_wf (m : Memory) (i : Nat) (h : m.wf) : (m.without i).wf :=
  ⟨h.1.filter _, fun c hc => h.2 c (List.mem_filter.mp hc).1⟩

theorem Memory.mem_insertCell (m : Memory) (i : Nat) (v : Word) (c : Nat × Word) :
    c ∈ Memory.insertCell i v m ↔ c = (i, v) ∨ c ∈ m := by
  induction m with
  | nil => simp [Memory.insertCell]
  | cons d m ih =>
    unfold Memory.insertCell
    split
    · simp only [List.mem_cons, ih]; tauto
    · simp only [List.mem_cons]

theorem Memory.insertCell_rising (m : Memory) (i : Nat) (v : Word)
    (fresh : ∀ c ∈ m, c.1 ≠ i) (h : m.Pairwise (fun c d => c.1 < d.1)) :
    (Memory.insertCell i v m).Pairwise (fun c d => c.1 < d.1) := by
  induction m with
  | nil => simp [Memory.insertCell]
  | cons c m ih =>
    obtain ⟨hc, hm⟩ := List.pairwise_cons.mp h
    have hci : c.1 ≠ i := fresh c List.mem_cons_self
    unfold Memory.insertCell
    split
    · next hlt =>
      refine List.pairwise_cons.mpr ⟨fun d hd => ?_, ih (fun d hd => fresh d (List.mem_cons_of_mem _ hd)) hm⟩
      rcases (Memory.mem_insertCell m i v d).mp hd with rfl | hd
      · exact hlt
      · exact hc d hd
    · next hge =>
      refine List.pairwise_cons.mpr ⟨fun d hd => ?_, h⟩
      rcases List.mem_cons.mp hd with rfl | hd
      · dsimp only; omega
      · have := hc d hd
        dsimp only; omega

theorem Memory.insertCell_wf (m : Memory) (i : Nat) (v : Word) (hi : i < Config.memWords)
    (hv : v ≠ Config.undeclaredWord) (fresh : ∀ c ∈ m, c.1 ≠ i) (h : m.wf) :
    (Memory.insertCell i v m).wf := by
  refine ⟨Memory.insertCell_rising m i v fresh h.1, fun c hc => ?_⟩
  rcases (Memory.mem_insertCell m i v c).mp hc with rfl | hc
  · exact ⟨hi, hv⟩
  · exact h.2 c hc

/-- A write keeps the canonical form. -/
theorem Memory.write_wf (m : Memory) (a : Nat) (v : Word) (h : m.wf) : (m.write a v).wf := by
  unfold Memory.write
  split
  · exact Memory.without_wf m _ h
  · next hv =>
    exact Memory.insertCell_wf _ _ _ (Nat.mod_lt _ (by decide)) hv (Memory.without_fresh m _)
      (Memory.without_wf m _ h)

/-! ## The loader's memory -/

/-- The cells made from a `MEM_INIT` read as it does at their indices, and 0 elsewhere (R6). -/
theorem Memory.cellAt_cellsFrom (f : Nat → Word) (a n i : Nat) :
    (Memory.cellsFrom f a n).cellAt i = if a ≤ i ∧ i < a + n then f i else Config.undeclaredWord := by
  induction n generalizing a with
  | zero => rw [if_neg (by omega)]; rfl
  | succ n ih =>
    unfold Memory.cellsFrom
    split
    · next h => rw [ih]; grind
    · next h => simp only [Memory.cellAt, ih]; grind

theorem Memory.mem_cellsFrom (f : Nat → Word) (a n : Nat) (c : Nat × Word)
    (hc : c ∈ Memory.cellsFrom f a n) : a ≤ c.1 ∧ c.1 < a + n ∧ c.2 ≠ Config.undeclaredWord := by
  induction n generalizing a with
  | zero => simp [Memory.cellsFrom] at hc
  | succ n ih =>
    unfold Memory.cellsFrom at hc
    split at hc
    · have := ih (a + 1) hc
      exact ⟨by omega, by omega, this.2.2⟩
    · next h =>
      rcases List.mem_cons.mp hc with rfl | hc
      · exact ⟨Nat.le_refl _, by dsimp only; omega, h⟩
      · have := ih (a + 1) hc
        exact ⟨by omega, by omega, this.2.2⟩

/-- The cells made from a `MEM_INIT` are in canonical form. -/
theorem Memory.cellsFrom_wf (f : Nat → Word) (a n : Nat) (below : a + n ≤ Config.memWords) :
    (Memory.cellsFrom f a n).wf := by
  refine ⟨?_, fun c hc => ?_⟩
  · clear below
    induction n generalizing a with
    | zero => exact List.Pairwise.nil
    | succ n ih =>
      unfold Memory.cellsFrom
      split
      · exact ih (a + 1)
      · exact List.pairwise_cons.mpr ⟨fun c hc => (Memory.mem_cellsFrom f (a + 1) n c hc).1, ih (a + 1)⟩
  · have h := Memory.mem_cellsFrom f a n c hc
    exact ⟨by omega, h.2.2⟩

end Sys2Proof.Machine
end

