-- ==== Sys2Proof/Laws/Operands.lean ====
section
/-! SUPPORT. The operand forms and comparisons as arithmetic (00_scope.md R8, R9; 43_load_store.md R130; 44_control_flow.md R142). -/

namespace Sys2Proof.Machine

/-- `sext7` by cases on the sign bit (R9). -/
theorem sext7_cases (v : Imm7) : sext7 v = if v.toNat < 64 then (v.toNat : Int) else v.toNat - 128 := by
  have hv := v.isLt
  simp only [sext7, signExtend, BitVec.getLsbD, Nat.testBit]
  split <;> split <;> simp_all [Nat.shiftRight_eq_div_pow] <;> omega

theorem sext7_range (v : Imm7) : -64 ≤ sext7 v ∧ sext7 v ≤ 63 := by
  have hv := v.isLt
  rw [sext7_cases]
  split <;> omega

/-- `sext_16` is `sext7` modulo 2^16 (R9). -/
theorem sext16_toNat (v : Imm7) : ((sext16 v).toNat : Int) = sext7 v % 65536 := by
  simp [sext16, BitVec.toNat_ofInt]; omega

theorem zext16_toNat (v : Imm13) : (zext16 v).toNat = v.toNat := by
  have hv := v.isLt
  simp [zext16, BitVec.toNat_setWidth]; omega

theorem jumpTarget_toNat (v : Imm13) : (jumpTarget v).toNat = v.toNat := zext16_toNat v

/-- `ea16` (R130). -/
theorem effectiveAddress_toNat (s : State) (rA : RegIdx) (v : Imm7) :
    ((effectiveAddress s rA v).toNat : Int) = ((s.readReg rA).toNat + sext7 v) % 65536 := by
  have h := sext16_toNat v
  simp only [effectiveAddress, BitVec.toNat_add]
  omega

/-- `idx`, straight from the exact sum (R130). -/
theorem dataIndex_eq (s : State) (rA : RegIdx) (v : Imm7) :
    (dataIndex s rA v : Int) = ((s.readReg rA).toNat + sext7 v) % 8192 := by
  have h := effectiveAddress_toNat s rA v
  show (((effectiveAddress s rA v).toNat % 8192 : Nat) : Int) = _
  omega

theorem dataIndex_lt (s : State) (rA : RegIdx) (v : Imm7) : dataIndex s rA v < 8192 :=
  Nat.mod_lt _ (by decide)

/-- A data index is its own remainder. -/
theorem dataIndex_mod (s : State) (rA : RegIdx) (v : Imm7) : dataIndex s rA v % 8192 = dataIndex s rA v :=
  Nat.mod_eq_of_lt (dataIndex_lt s rA v)

/-- The branch target (R142). -/
theorem branchTarget_toNat (s : State) (v : Imm7) :
    ((branchTarget s v).toNat : Int) = (s.pc.toNat + 1 + sext7 v) % 65536 := by
  simp [branchTarget, BitVec.toNat_ofInt]; omega

theorem pcPlusOne_toNat (s : State) : s.pcPlusOne.toNat = (s.pc.toNat + 1) % 65536 := by
  simp [State.pcPlusOne, BitVec.toNat_add]

theorem targetsItself_iff (s : State) (v : Imm13) : targetsItself s v = true ↔ zext16 v = s.pc := by
  simp [targetsItself, jumpTarget]

theorem lessUnsigned_iff (a b : Word) : lessUnsigned a b = true ↔ a.toNat < b.toNat := by simp [lessUnsigned]

theorem lessSigned_iff (a : Word) (i : Int) : lessSigned a i = true ↔ signed16 a < i := by simp [lessSigned]

theorem sameWord_iff (a b : Word) : sameWord a b = true ↔ a = b := by simp [sameWord]

/-- The signed reading of a sign-extended immediate is the immediate (R164). -/
theorem signed16_sext16 (v : Imm7) : signed16 (sext16 v) = sext7 v := by
  have h := sext16_toNat v
  have r := sext7_range v
  simp only [signed16]
  split <;> omega

end Sys2Proof.Machine
end

