-- ==== Sys2Proof/Laws/Registers.lean ====
section
/-! SUPPORT. What the register file answers (10_state.md R21, R22). -/

namespace Sys2Proof.Machine

/-- The eight register indices, for a case split. -/
theorem regIdx_cases (r : RegIdx) :
    r = 0#3 ∨ r = 1#3 ∨ r = 2#3 ∨ r = 3#3 ∨ r = 4#3 ∨ r = 5#3 ∨ r = 6#3 ∨ r = 7#3 := by
  revert r; decide

/-- A read after a write: the written register, unless it is register 0, and every other one as before. -/
theorem RegFile.read_write (x : RegFile) (d r : RegIdx) (v : Word) :
    (x.write d v).read r = if r = d ∧ d ≠ 0#3 then v else x.read r := by
  rcases regIdx_cases d with rfl | rfl | rfl | rfl | rfl | rfl | rfl | rfl <;>
    rcases regIdx_cases r with rfl | rfl | rfl | rfl | rfl | rfl | rfl | rfl <;> rfl

/-- The same, of a state. -/
theorem readReg_writeReg (s : State) (d r : RegIdx) (v : Word) :
    (s.writeReg d v).readReg r = if r = d ∧ d ≠ 0#3 then v else s.readReg r :=
  RegFile.read_write s.regs d r v

/-- Register files that read alike are the same. -/
theorem RegFile.eq_of_read (x y : RegFile) (h : ∀ r, x.read r = y.read r) : x = y := by
  cases x; cases y
  simp only [RegFile.mk.injEq]
  exact ⟨h 1#3, h 2#3, h 3#3, h 4#3, h 5#3, h 6#3, h 7#3⟩

/-- The cleared register file reads 0 everywhere (R35). -/
theorem RegFile.zero_read (r : RegIdx) : RegFile.zero.read r = 0#16 := by
  rcases regIdx_cases r with rfl | rfl | rfl | rfl | rfl | rfl | rfl | rfl <;> rfl

end Sys2Proof.Machine
end

