-- ==== Sys2Proof/Laws/Exec.lean ====
section
/-! SUPPORT. What each shared ending can do, and what one instruction can do as a whole (40_fetch_decode_step.md R95, R98). -/

namespace Sys2Proof.Machine

/-! ## The shared endings -/

/-- A register write-back: register 0 discards, the pc goes on by one, memory stays (R97, R99). -/
theorem writeBack_spec {s t : State} {d : RegIdx} {v : Word} (h : writeBack s d v = .next t) :
    (∀ r, t.readReg r = if r = d ∧ d ≠ 0#3 then v else s.readReg r) ∧ t.pc = s.pc + 1#16 ∧ t.mem = s.mem := by
  cases h
  exact ⟨fun r => readReg_writeReg s d r v, rfl, rfl⟩

/-- A store: one index changes, the pc goes on by one, registers stay (R41, R97). -/
theorem storeBack_spec {s t : State} {a : Nat} {v : Word} (h : storeBack s a v = .next t) :
    t.regs = s.regs ∧ t.pc = s.pc + 1#16 ∧
      ∀ b, t.memRead b = if b % 8192 = a % 8192 then v else s.memRead b := by
  cases h
  exact ⟨rfl, rfl, fun b => memRead_memWrite s a b v⟩

/-- A jump: the pc alone changes (R140). -/
theorem jumpTo_spec {s t : State} {p : Word} (h : jumpTo s p = .next t) :
    t.regs = s.regs ∧ t.pc = p ∧ t.mem = s.mem := by
  cases h
  exact ⟨rfl, rfl, rfl⟩

/-- A halting step changes nothing (R96). -/
theorem haltStep_spec {s t : State} (h : haltStep s = .next t) : t = s := by cases h; rfl

/-- A stalling step changes nothing (R146). -/
theorem stallStep_spec {s t : State} (h : stallStep s = .next t) : t = s := by cases h; rfl

/-! ## One instruction -/

/-- Everything an instruction can do: write back a register, store a Word, jump, jump with the link, or nothing. -/
theorem exec_cases {i : Instr} {s t : State} (h : exec i s = .next t) :
    (∃ d v, t = (s.writeReg d v).advance) ∨
    (∃ rA rB imm7, i = .sw rA rB imm7 ∧ t = (s.memWrite (dataIndex s rA imm7) (s.readReg rB)).advance) ∨
    (∃ p, t = s.setPc p) ∨
    (∃ imm13, i = .jal imm13 ∧ t = (s.writeReg Config.linkReg s.pcPlusOne).setPc (jumpTarget imm13)) ∨
    t = s := by
  cases i with
  | add rA rB rD => cases h; exact .inl ⟨_, _, rfl⟩
  | sub rA rB rD => cases h; exact .inl ⟨_, _, rfl⟩
  | or rA rB rD => cases h; exact .inl ⟨_, _, rfl⟩
  | and rA rB rD => cases h; exact .inl ⟨_, _, rfl⟩
  | slt rA rB rD => cases h; exact .inl ⟨_, _, rfl⟩
  | addi rA rB imm7 => cases h; exact .inl ⟨_, _, rfl⟩
  | slti rA rB imm7 => cases h; exact .inl ⟨_, _, rfl⟩
  | lw rA rB imm7 => cases h; exact .inl ⟨_, _, rfl⟩
  | sw rA rB imm7 => cases h; exact .inr (.inl ⟨_, _, _, rfl, rfl⟩)
  | jr rA => cases h; exact .inr (.inr (.inl ⟨_, rfl⟩))
  | jeq rA rB imm7 => cases h; exact .inr (.inr (.inl ⟨_, rfl⟩))
  | j imm13 =>
    simp only [exec, execJ] at h
    split at h
    · exact .inr (.inr (.inr (.inr (haltStep_spec h))))
    · cases h; exact .inr (.inr (.inl ⟨_, rfl⟩))
  | jal imm13 => cases h; exact .inr (.inr (.inr (.inl ⟨_, rfl, rfl⟩)))
  | reserved5 x | reserved6 x | reserved7 x | reserved9 x | reserved10 x | reserved11 x | reserved12 x
  | reserved13 x | reserved14 x | reserved15 x => exact .inr (.inr (.inr (.inr (stallStep_spec h))))

end Sys2Proof.Machine
end

