-- ==== Sys2Proof/Laws/PerInstr.lean ====
section
/-! SUPPORT. A family of facts about every instruction, one lemma per constructor: an instruction's Word matches its own row of the
opcode table (30_encoding.md R82). -/

namespace Sys2Proof.Laws.TableRow

/-- `(w AND mask) = match`, for the Word of the instruction and its row (R82). -/
def Statement (i : Instr) : Prop := encode i &&& i.row.mask = i.row.pattern

theorem add (rA rB rD : RegIdx) : Statement (.add rA rB rD) := (formatRRR_masked rA rB rD _).trans rfl

theorem sub (rA rB rD : RegIdx) : Statement (.sub rA rB rD) := (formatRRR_masked rA rB rD _).trans rfl

theorem or (rA rB rD : RegIdx) : Statement (.or rA rB rD) := (formatRRR_masked rA rB rD _).trans rfl

theorem and (rA rB rD : RegIdx) : Statement (.and rA rB rD) := (formatRRR_masked rA rB rD _).trans rfl

theorem slt (rA rB rD : RegIdx) : Statement (.slt rA rB rD) := (formatRRR_masked rA rB rD _).trans rfl

theorem jr (rA : RegIdx) : Statement (.jr rA) := (formatRRR_masked rA 0#3 0#3 _).trans rfl

theorem addi (rA rB : RegIdx) (imm7 : Imm7) : Statement (.addi rA rB imm7) :=
  (formatRRI_masked _ rA rB imm7).trans rfl

theorem lw (rA rB : RegIdx) (imm7 : Imm7) : Statement (.lw rA rB imm7) :=
  (formatRRI_masked _ rA rB imm7).trans rfl

theorem sw (rA rB : RegIdx) (imm7 : Imm7) : Statement (.sw rA rB imm7) :=
  (formatRRI_masked _ rA rB imm7).trans rfl

theorem jeq (rA rB : RegIdx) (imm7 : Imm7) : Statement (.jeq rA rB imm7) :=
  (formatRRI_masked _ rA rB imm7).trans rfl

theorem slti (rA rB : RegIdx) (imm7 : Imm7) : Statement (.slti rA rB imm7) :=
  (formatRRI_masked _ rA rB imm7).trans rfl

theorem j (imm13 : Imm13) : Statement (.j imm13) := (formatJ_masked _ imm13).trans rfl

theorem jal (imm13 : Imm13) : Statement (.jal imm13) := (formatJ_masked _ imm13).trans rfl

theorem reserved5 (ignored : BitVec 9) : Statement (.reserved5 ignored) :=
  (formatReserved_masked ignored _).trans rfl

theorem reserved6 (ignored : BitVec 9) : Statement (.reserved6 ignored) :=
  (formatReserved_masked ignored _).trans rfl

theorem reserved7 (ignored : BitVec 9) : Statement (.reserved7 ignored) :=
  (formatReserved_masked ignored _).trans rfl

theorem reserved9 (ignored : BitVec 9) : Statement (.reserved9 ignored) :=
  (formatReserved_masked ignored _).trans rfl

theorem reserved10 (ignored : BitVec 9) : Statement (.reserved10 ignored) :=
  (formatReserved_masked ignored _).trans rfl

theorem reserved11 (ignored : BitVec 9) : Statement (.reserved11 ignored) :=
  (formatReserved_masked ignored _).trans rfl

theorem reserved12 (ignored : BitVec 9) : Statement (.reserved12 ignored) :=
  (formatReserved_masked ignored _).trans rfl

theorem reserved13 (ignored : BitVec 9) : Statement (.reserved13 ignored) :=
  (formatReserved_masked ignored _).trans rfl

theorem reserved14 (ignored : BitVec 9) : Statement (.reserved14 ignored) :=
  (formatReserved_masked ignored _).trans rfl

theorem reserved15 (ignored : BitVec 9) : Statement (.reserved15 ignored) :=
  (formatReserved_masked ignored _).trans rfl

end Sys2Proof.Laws.TableRow
end

