-- ==== Sys2Proof/Tests/Slice0.lean ====
section
/-! SUPPORT. Small tests. Words, states and results are those of 95_test_vectors.md (V<n>, S<n>, P<n>) or are worked out by hand from
the rule named; none was taken from a run of this model. Every theorem is closed by evaluation in the kernel. -/

namespace Sys2Proof.Tests

open Sys2Proof Sys2Proof.Machine Sys2Proof.Claims

/-! ## Helpers -/

/-- A state from pc, registers 1 to 7 and memory cells. -/
def mkState (pc : Nat) (x1 x2 x3 x4 x5 x6 x7 : Nat) (cells : List (Nat × Nat)) : State :=
  { regs := ⟨BitVec.ofNat 16 x1, BitVec.ofNat 16 x2, BitVec.ofNat 16 x3, BitVec.ofNat 16 x4, BitVec.ofNat 16 x5,
      BitVec.ofNat 16 x6, BitVec.ofNat 16 x7⟩
    pc := BitVec.ofNat 16 pc
    mem := cells.map (fun c => (c.1, BitVec.ofNat 16 c.2)) }

/-- The step answers a next state of which the check holds. -/
def stepGives (s : State) (check : State → Bool) : Bool :=
  match step s with
  | .next t => check t
  | _ => false

/-- The step answers the same state, with this halt and stall output. -/
def stays (s : State) (halt stall : Bool) : Bool :=
  stepGives s (fun t => t == s) && s.halted == halt && s.stalled == stall

/-! ## Parameters (R5) -/

theorem test_widths :
    Config.xlen = 16 ∧ Config.nregs = 2 ^ Config.regIdxBits ∧ Config.memWords = 2 ^ Config.addrBits ∧
    Config.opcodeBits + 3 * Config.regIdxBits + Config.funcBits = Config.ilen ∧
    Config.opcodeBits + 2 * Config.regIdxBits + Config.imm7Bits = Config.ilen ∧
    Config.opcodeBits + Config.imm13Bits = Config.ilen ∧ Config.pcBits = Config.xlen := by decide

/-! ## Well-formedness: an ill-formed term for each check -/

theorem test_illformed_reserved5 : (Instr.reserved5 0#9).wellFormed = false := by decide
theorem test_illformed_reserved6 : (Instr.reserved6 0#9).wellFormed = false := by decide
theorem test_illformed_reserved7 : (Instr.reserved7 0#9).wellFormed = false := by decide
theorem test_illformed_reserved9 : (Instr.reserved9 0#9).wellFormed = false := by decide
theorem test_illformed_reserved10 : (Instr.reserved10 0#9).wellFormed = false := by decide
theorem test_illformed_reserved11 : (Instr.reserved11 0#9).wellFormed = false := by decide
theorem test_illformed_reserved12 : (Instr.reserved12 0#9).wellFormed = false := by decide
theorem test_illformed_reserved13 : (Instr.reserved13 0#9).wellFormed = false := by decide
theorem test_illformed_reserved14 : (Instr.reserved14 0#9).wellFormed = false := by decide
theorem test_illformed_reserved15 : (Instr.reserved15 0#9).wellFormed = false := by decide
theorem test_illformed_register_first : assemble 0 (.add 8 0 0) = none := by decide
theorem test_illformed_register_second : assemble 0 (.sub 0 8 0) = none := by decide
theorem test_illformed_register_third : assemble 0 (.and 0 0 8) = none := by decide
theorem test_illformed_jr_register : assemble 0 (.jr 8) = none := by decide
theorem test_illformed_immediate_high : assemble 0 (.addi 1 1 64) = none := by decide
theorem test_illformed_immediate_low : assemble 0 (.slti 1 1 (-65)) = none := by decide
theorem test_illformed_displacement : assemble 0 (.lw 1 64 1) = none := by decide
theorem test_illformed_store_register : assemble 0 (.sw 8 0 1) = none := by decide
theorem test_illformed_offset : assemble 0 (.jeq 0 0 (-65)) = none := by decide
theorem test_illformed_target : assemble 0 (.j 8192) = none := by decide
theorem test_illformed_link_target : assemble 0 (.jal 8192) = none := by decide
theorem test_illformed_halt_address : assemble 8192 (.halt) = none := by decide
theorem test_illformed_fill : assemble 0 (.fill 65536) = none := by decide

/-! ## Decoding: Words written out bit by bit from the formats of R64 to R66 (95_test_vectors.md 2.1) -/

theorem test_decode_add_zero : decode 0b0000000000000000#16 = .add 0 0 0 := by decide
theorem test_decode_add : decode 0b0000010100110000#16 = .add 1 2 3 := by decide
theorem test_decode_sub : decode 0b0000100011110001#16 = .sub 2 1 7 := by decide
theorem test_decode_or : decode 0b0000101110100010#16 = .or 2 7 2 := by decide
theorem test_decode_and : decode 0b0000011110010011#16 = .and 1 7 1 := by decide
theorem test_decode_slt : decode 0b0000010100110100#16 = .slt 1 2 3 := by decide
theorem test_decode_jr : decode 0b0001110000001000#16 = .jr 7 := by decide
theorem test_decode_jr_ignored_bits : decode 0b0001111111111000#16 = .jr 7 := by decide
theorem test_decode_addi : decode 0b0010010010000101#16 = .addi 1 1 5 := by decide
theorem test_decode_addi_minus_one : decode 0b0010010011111111#16 = .addi 1 1 0x7F := by decide
theorem test_decode_j : decode 0b0100000000000010#16 = .j 2 := by decide
theorem test_decode_j_top : decode 0b0101111111111111#16 = .j 8191 := by decide
theorem test_decode_jal : decode 0b0110000000000101#16 = .jal 5 := by decide
theorem test_decode_lw : decode 0b1000011000001100#16 = .lw 1 4 12 := by decide
theorem test_decode_sw : decode 0b1011100100010010#16 = .sw 6 2 18 := by decide
theorem test_decode_jeq : decode 0b1100010000000011#16 = .jeq 1 0 3 := by decide
theorem test_decode_jeq_minus_four : decode 0b1100000001111100#16 = .jeq 0 0 0x7C := by decide
theorem test_decode_slti : decode 0b1110101101111111#16 = .slti 2 6 0x7F := by decide
theorem test_decode_slti_ones : decode 0b1111111111111111#16 = .slti 7 7 0x7F := by decide
theorem test_decode_reserved5 : decode 0b0000110100010101#16 = .reserved5 0b011010001 := by decide
theorem test_decode_reserved6 : decode 0b0000110100010110#16 = .reserved6 0b011010001 := by decide
theorem test_decode_reserved7 : decode 0b0000110100010111#16 = .reserved7 0b011010001 := by decide
theorem test_decode_reserved9 : decode 0b0000110100011001#16 = .reserved9 0b011010001 := by decide
theorem test_decode_reserved10 : decode 0b0000110100011010#16 = .reserved10 0b011010001 := by decide
theorem test_decode_reserved11 : decode 0b0000110100011011#16 = .reserved11 0b011010001 := by decide
theorem test_decode_reserved12 : decode 0b0000110100011100#16 = .reserved12 0b011010001 := by decide
theorem test_decode_reserved13 : decode 0b0000110100011101#16 = .reserved13 0b011010001 := by decide
theorem test_decode_reserved14 : decode 0b0000110100011110#16 = .reserved14 0b011010001 := by decide
theorem test_decode_reserved15 : decode 0b0000110100011111#16 = .reserved15 0b011010001 := by decide

/-- Assembled lines are the Words of 95_test_vectors.md. -/
theorem test_assemble :
    assemble 0 (.sub 7 2 1) = some 0x08F1#16 ∧ assemble 0 (.addi 1 1 (-1)) = some 0x24FF#16 ∧
    assemble 0 (.sw 2 18 6) = some 0xB912#16 ∧ assemble 5 (.jeq 0 0 (-4)) = some 0xC07C#16 ∧
    assemble 6 .halt = some 0x4006#16 ∧ assemble 0 .nop = some 0x0000#16 ∧ assemble 0 (.fill 0xCAFE) = some 0xCAFE#16 := by
  decide

theorem test_table_word : decodeTableWord 16 0x860C = some (.lw 1 4 12) := by decide

/-- S3: sign extension at 7, 13 and 15 bits. -/
theorem test_signExtend :
    signExtend 7 0x40#7 = -64 ∧ signExtend 7 0x7F#7 = -1 ∧ signExtend 7 0x3F#7 = 63 ∧
    signExtend 13 0x1FFF#13 = -1 ∧ signExtend 15 0x4000#15 = -16384 := by decide

/-! ## One step -/

/-- V1 -/
theorem test_add_loses_carry :
    stepGives (mkState 0 0xffff 0x1 0x9 0x0 0x0 0x0 0x0 [(0, 0x0530)]) (fun t => t.pc == 1 && t.regs.x3 == 0 && t.regs.x1 == 0xFFFF) = true := by decide

/-- V3 -/
theorem test_add_reads_before_writing :
    stepGives (mkState 4 0x8001 0x0 0x0 0x0 0x0 0x0 0x0 [(4, 0x0490)]) (fun t => t.pc == 5 && t.regs.x1 == 2) = true := by decide

/-- V4 -/
theorem test_add_to_register_zero :
    stepGives (mkState 0 0x1234 0x0 0x0 0x0 0x0 0x0 0x0 [(0, 0x0080)]) (fun t => t == mkState 1 0x1234 0 0 0 0 0 0 [(0, 0x0080)]) = true := by decide

/-- V6 -/
theorem test_sub_wraps :
    stepGives (mkState 0 0x0 0x1 0x0 0x0 0x0 0x0 0x0 [(0, 0x0531)]) (fun t => t.pc == 1 && t.regs.x3 == 0xFFFF) = true := by decide

/-- V9 -/
theorem test_sub_minuend_is_rA :
    stepGives (mkState 0 0x5 0x3 0x0 0x0 0x0 0x0 0x0 [(0, 0x08B1)]) (fun t => t.regs.x3 == 0xFFFE) = true := by decide

/-- V10 -/
theorem test_or :
    stepGives (mkState 0 0xf0f0 0xff0 0x0 0x0 0x0 0x0 0x0 [(0, 0x0532)]) (fun t => t.pc == 1 && t.regs.x3 == 0xFFF0) = true := by decide

/-- V12 -/
theorem test_and :
    stepGives (mkState 0 0xf0f0 0xff0 0x0 0x0 0x0 0x0 0x0 [(0, 0x0533)]) (fun t => t.pc == 1 && t.regs.x3 == 0x00F0) = true := by decide

/-- V14 -/
theorem test_slt_is_unsigned :
    stepGives (mkState 0 0xffff 0x1 0x7 0x0 0x0 0x0 0x0 [(0, 0x0534)]) (fun t => t.pc == 1 && t.regs.x3 == 0) = true := by decide

/-- V18 -/
theorem test_slt_across_the_sign :
    stepGives (mkState 0 0x7fff 0x8000 0x0 0x0 0x0 0x0 0x0 [(0, 0x0534)]) (fun t => t.regs.x3 == 1) = true := by decide

/-- V22 -/
theorem test_addi_negative :
    stepGives (mkState 0 0x20 0x0 0x0 0x0 0x0 0x0 0x0 [(0, 0x2540)]) (fun t => t.pc == 1 && t.regs.x2 == 0xFFE0) = true := by decide

/-- V23 -/
theorem test_addi_largest :
    stepGives (mkState 0 0x7fff 0x0 0x0 0x0 0x0 0x0 0x0 [(0, 0x253F)]) (fun t => t.regs.x2 == 0x803E) = true := by decide

/-- V25 -/
theorem test_slti_is_signed :
    stepGives (mkState 0 0xffff 0x0 0x0 0x0 0x0 0x0 0x0 [(0, 0xE500)]) (fun t => t.pc == 1 && t.regs.x2 == 1) = true := by decide

/-- V29 -/
theorem test_slti_equal_at_the_end :
    stepGives (mkState 0 0xffc0 0x9 0x0 0x0 0x0 0x0 0x0 [(0, 0xE540)]) (fun t => t.regs.x2 == 0) = true := by decide

/-- V36 -/
theorem test_lw_address_wraps :
    stepGives (mkState 0 0xffff 0x0 0x0 0x0 0x0 0x0 0x0 [(0, 0x8512), (17, 0x5555)]) (fun t => t.pc == 1 && t.regs.x2 == 0x5555) = true := by decide

/-- V38 -/
theorem test_lw_into_its_base :
    stepGives (mkState 0 0x6 0x0 0x0 0x0 0x0 0x0 0x0 [(0, 0x8480), (6, 0x0007)]) (fun t => t.regs.x1 == 7) = true := by decide

/-- V42 -/
theorem test_sw_negative_displacement :
    stepGives (mkState 1 0x20 0xbeef 0x0 0x0 0x0 0x0 0x0 [(1, 0xA540)]) (fun t => t.pc == 2 && t.mem == [(1, 0xA540#16), (8160, 0xBEEF#16)]) = true := by decide

/-- V43: a stored 0 leaves the canonical form without a cell -/
theorem test_sw_zero_unlists :
    stepGives (mkState 0 0x0 0x0 0x0 0x0 0x0 0x0 0x0 [(0, 0xA005), (5, 0xFFFF)]) (fun t => t.pc == 1 && t.mem == [(0, 0xA005#16)]) = true := by decide

/-- V48 -/
theorem test_jr_is_not_reduced :
    stepGives (mkState 1 0x2003 0x0 0x0 0x0 0x0 0x0 0x0 [(1, 0x0408)]) (fun t => t.pc == 0x2003) = true := by decide

/-- V49 -/
theorem test_jr_writes_no_register :
    stepGives (mkState 0 0x0 0x0 0x0 0x0 0x0 0x0 0x100 [(0, 0x1FF8)]) (fun t => t == mkState 0x0100 0 0 0 0 0 0 0x0100 [(0, 0x1FF8)]) = true := by decide

/-- V57 -/
theorem test_jeq_wraps_backward :
    stepGives (mkState 0 0x0 0x0 0x0 0x0 0x0 0x0 0x0 [(0, 0xC07E)]) (fun t => t.pc == 0xFFFF) = true := by decide

/-- V55 -/
theorem test_jeq_not_taken :
    stepGives (mkState 5 0x8000 0x0 0x0 0x0 0x0 0x0 0x0 [(5, 0xC57C)]) (fun t => t.pc == 6) = true := by decide

/-- V61 -/
theorem test_j :
    stepGives (mkState 5 0x0 0x0 0x0 0x0 0x0 0x0 0x0 [(5, 0x4002)]) (fun t => t.pc == 2) = true := by decide

/-- V63 -/
theorem test_j_through_an_alias :
    stepGives (mkState 8195 0x0 0x0 0x0 0x0 0x0 0x0 0x0 [(3, 0x4003)]) (fun t => t.pc == 3) = true := by decide

/-- V69 -/
theorem test_jal_links_high_bits :
    stepGives (mkState 8195 0x0 0x0 0x0 0x0 0x0 0x0 0x0 [(3, 0x6004)]) (fun t => t.pc == 4 && t.regs.x7 == 0x2004) = true := by decide

/-- V68 -/
theorem test_jal_to_itself_is_no_halt :
    stepGives (mkState 1 0x0 0x0 0x0 0x0 0x0 0x0 0xaaaa [(1, 0x6001)]) (fun t => t.pc == 1 && t.regs.x7 == 2 && !t.halted) = true := by decide

/-- V5 -/
theorem test_pc_wraps :
    stepGives (mkState 65535 0x0 0x0 0x0 0x0 0x0 0x0 0x0 []) (fun t => t == mkState 0 0 0 0 0 0 0 0 []) = true := by decide

/-- V45, and the next fetch of index 0 sees `j 0` -/
theorem test_fetch_sees_a_store :
    stepGives (mkState 0 0x0 0x4000 0x0 0x0 0x0 0x0 0x0 [(0, 0xA100)]) (fun t => t.pc == 1 && t.mem.read 0 == 0x4000 && decode (t.mem.read 8192) == .j 0) = true := by decide

/-- V64 -/
theorem test_halt : stays (mkState 5 7 0 0 0 0 0 0 [(5, 0x4005)]) true false = true := by decide

/-- V66: the highest pc at which a Word is a halt. -/
theorem test_halt_at_the_top : stays (mkState 0x1FFF 0 0 0 0 0 0 0 [(8191, 0x5FFF)]) true false = true := by decide

/-- V72 -/
theorem test_reserved5_stalls : stays (mkState 1 1 2 3 0 0 0 0 [(1, 0x0D15)]) false true = true := by decide

/-- V73 -/
theorem test_reserved6_stalls : stays (mkState 1 1 2 3 0 0 0 0 [(1, 0x0D16)]) false true = true := by decide

/-- V74 -/
theorem test_reserved7_stalls : stays (mkState 1 1 2 3 0 0 0 0 [(1, 0x0D17)]) false true = true := by decide

/-- V75 -/
theorem test_reserved9_stalls : stays (mkState 1 1 2 3 0 0 0 0 [(1, 0x0D19)]) false true = true := by decide

/-- V76 -/
theorem test_reserved10_stalls : stays (mkState 1 1 2 3 0 0 0 0 [(1, 0x0D1A)]) false true = true := by decide

/-- V77 -/
theorem test_reserved11_stalls : stays (mkState 1 1 2 3 0 0 0 0 [(1, 0x0D1B)]) false true = true := by decide

/-- V78 -/
theorem test_reserved12_stalls : stays (mkState 1 1 2 3 0 0 0 0 [(1, 0x0D1C)]) false true = true := by decide

/-- V79 -/
theorem test_reserved13_stalls : stays (mkState 1 1 2 3 0 0 0 0 [(1, 0x0D1D)]) false true = true := by decide

/-- V80 -/
theorem test_reserved14_stalls : stays (mkState 1 1 2 3 0 0 0 0 [(1, 0x0D1E)]) false true = true := by decide

/-- V81 -/
theorem test_reserved15_stalls : stays (mkState 1 1 2 3 0 0 0 0 [(1, 0x0D1F)]) false true = true := by decide

/-- The hardware view at one clock edge: V44, and the store strobe with its address (R169, R177). -/
theorem test_clockEdge :
    clockEdge false (mkState 0 0x3FFF 0 0 0 0 0 0 [(0, 0xA480)]) =
      mkState 1 0x3FFF 0 0 0 0 0 0 [(0, 0xA480), (8191, 0x3FFF)] ∧
    (outputs (mkState 0 0x3FFF 0 0 0 0 0 0 []).regs 0 0xA480#16).dmemAddr = some 8191#13 := by decide

/-- R213, R214: reset keeps what the run stored. -/
theorem test_reset_input :
    (mkState 9 1 2 3 4 5 6 7 [(3, 4)]).assertReset = mkState 0 0 0 0 0 0 0 0 [(3, 4)] := by decide

/-- S8: the program of the store-then-load scenario halts with the values listed (three instructions, then the halt). -/
theorem test_run_S8 :
    runToHalt 4 (mkState 0 0 0 0 0 0 0 0 [(0, 0x20AA), (1, 0xA094), (2, 0x8114), (3, 0x4003)]) =
      .halted (mkState 3 42 42 0 0 0 0 0 [(0, 0x20AA), (1, 0xA094), (2, 0x8114), (3, 0x4003), (20, 42)]) := by decide

/-! ## Witnesses: the hypotheses of the statements can be met -/

theorem test_witness_ResetStateHoldsZerosAndMemInit :
    (0 : Nat) < 8192 ∧ (8191 : Nat) < 8192 := by decide

theorem test_witness_EveryStepKeepsMemoryCanonical :
    (mkState 0 0 0 0 0 0 0 0 [(0, 0xA480), (8191, 7)]).mem.wf ∧
    ∃ t, step (mkState 0 0 0 0 0 0 0 0 [(0, 0xA480), (8191, 7)]) = .next t := ⟨by decide, _, rfl⟩

theorem test_witness_CanonicalMemoriesThatReadAlikeAreEqual :
    Memory.wf [(0, 1#16), (8191, 2#16)] ∧
    ∀ a, Memory.read [(0, 1#16), (8191, 2#16)] a = Memory.read [(0, 1#16), (8191, 2#16)] a := ⟨by decide, fun _ => rfl⟩

theorem test_witness_AliasesNameTheSameWord :
    (mkState 0x2003 0 0 0 0 0 0 0 [(3, 9)]).mem = (mkState 3 0 0 0 0 0 0 0 [(3, 9)]).mem ∧
    (mkState 0x2003 0 0 0 0 0 0 0 []).pc.toNat % 8192 = (mkState 3 0 0 0 0 0 0 0 []).pc.toNat % 8192 ∧
    (mkState 0 0x2005 0 0 0 0 0 0 []).readReg 1 = (mkState 0 5 0 0 0 0 0 0 []).readReg 1 + BitVec.ofNat 16 (8192 * 1) ∧
    (mkState 0 0 0 0 0 0 0xFFFF 0 []).readReg 6 = 0xFFFF#16 := by decide

theorem test_witness_FieldsTileTheWord :
    (decode 0x08F1#16).wellFormed = true ∧ ¬ (0x08F1#16 &&& 0xE00F#16 = 0x0008#16) ∧ Matches 0x1FF8#16 0xE00F 0x0008 := ⟨by decide, by decide, rfl⟩

theorem test_witness_ReservedWordsKeepTheirBits :
    (0x1FFF#16).toNat / 8192 = 0 ∧ (0x1FFF#16).toNat % 16 ∈ reservedFuncs := by decide

theorem test_witness_OnlyJrIgnoresBits :
    Matches 0x1FF8#16 0xE00F 0x0008 ∧ 0x1FF8#16 &&& 0xFC0F#16 = 0x1C08#16 &&& 0xFC0F#16 ∧
    (decode 0x2485#16).wellFormed = true ∧ ¬ (0x2485#16 &&& 0xE00F#16 = 0x0008#16) ∧
    decode 0x2485#16 = decode 0x2485#16 := ⟨rfl, by decide, by decide, by decide, rfl⟩

theorem test_witness_ExtractIsDivisionAndRemainder :
    0 + 13 ≤ 16 ∧ 13 + 3 ≤ 16 ∧ (extract 0x5FFF#16 13 3).toNat = 2 := by decide

theorem test_witness_SignExtendIsTwosComplement :
    (1 ≤ 1 ∧ 1 ≤ 15) ∧ (1 ≤ 15 ∧ 15 ≤ 15) ∧ -2 ^ (7 - 1) ≤ (-64 : Int) ∧ (-64 : Int) < 2 ^ (7 - 1) ∧
    -2 ^ (7 - 1) ≤ (63 : Int) ∧ (63 : Int) < 2 ^ (7 - 1) := by decide

theorem test_witness_AssembledLinesDecodeAsWritten :
    assemble 0 (.addi 1 1 (-64)) = some 0x24C0#16 ∧ assemble 0 (.j 8191) = some 0x5FFF#16 ∧
    (Instr.addi 1 1 0x40).wellFormed = true := by decide

theorem test_witness_DestinationZeroOnlyAdvancesThePc :
    destination (.lw 1 0 5) = some 0#3 ∧ destination (.add 1 2 0) = some 0#3 := by decide

theorem test_witness_AddWritesTheSum :
    Matches 0x0530#16 0xE00F 0x0000 := rfl

theorem test_witness_SubWritesTheDifference :
    Matches 0x08F1#16 0xE00F 0x0001 := rfl

theorem test_witness_OrWritesTheBitwiseOr :
    Matches 0x0BA2#16 0xE00F 0x0002 := rfl

theorem test_witness_AndWritesTheBitwiseAnd :
    Matches 0x0793#16 0xE00F 0x0003 := rfl

theorem test_witness_SltComparesUnsigned :
    Matches 0x0534#16 0xE00F 0x0004 := rfl

theorem test_witness_AddiWritesTheSumWithTheImmediate :
    Matches 0x24FF#16 0xE000 0x2000 := rfl

theorem test_witness_SltiComparesSigned :
    Matches 0xEB7F#16 0xE000 0xE000 := rfl

theorem test_witness_LwLoadsTheWord :
    Matches 0x860C#16 0xE000 0x8000 := rfl

theorem test_witness_SwStoresTheWord :
    Matches 0xB912#16 0xE000 0xA000 := rfl

theorem test_witness_JrJumpsToTheRegister :
    Matches 0x1FF8#16 0xE00F 0x0008 := rfl

theorem test_witness_JeqBranchesOnEquality :
    Matches 0xC07C#16 0xE000 0xC000 := rfl

theorem test_witness_JalLinksAndJumps :
    Matches 0x6005#16 0xE000 0x6000 := rfl

theorem test_witness_JJumpsToTheTarget :
    Matches 0x4002#16 0xE000 0x4000 ∧ (2#13).toNat ≠ (mkState 5 0 0 0 0 0 0 0 []).pc.toNat := ⟨rfl, by decide⟩

theorem test_witness_SelfJumpHalts :
    (mkState 8191 0 0 0 0 0 0 0 [(8191, 0x5FFF)]).fetch.toNat / 8192 = 2 ∧
    (mkState 8191 0 0 0 0 0 0 0 [(8191, 0x5FFF)]).fetch.toNat % 8192 = (mkState 8191 0 0 0 0 0 0 0 []).pc.toNat ∧
    specStep (mkState 0 0 0 0 0 0 0 0 [(0, 0x4000)]) = .halt := by decide

theorem test_witness_ReservedFuncStalls :
    (mkState 0x2001 0 0 0 0 0 0 0 [(1, 0x0005)]).fetch.toNat / 8192 = 0 ∧
    (mkState 0x2001 0 0 0 0 0 0 0 [(1, 0x0005)]).fetch.toNat % 16 ∈ reservedFuncs := by decide

theorem test_witness_HaltAndReservedAnswerTheSameState :
    (8191#13).toNat = (mkState 8191 0 0 0 0 0 0 0 []).pc.toNat := by decide

theorem test_witness_NothingElseChanges :
    (∃ t, exec (.sw 1 2 0) (mkState 0 8191 3 0 0 0 0 0 []) = .next t) ∧ destination (.sw 1 2 0) ≠ some 7#3 ∧
    storeIndex (mkState 0 8191 3 0 0 0 0 0 []) (.sw 1 2 0) ≠ some (8192 % 8192) := ⟨⟨_, rfl⟩, by decide, by decide⟩

theorem test_witness_NewPcIsThatOfTheTable :
    ∃ t, exec (.jeq 0 0 0x7E) (mkState 0 0 0 0 0 0 0 0 []) = .next t := ⟨_, rfl⟩

theorem test_witness_PcLeavesMemoryOnlyAsListed :
    stepGives (mkState 1 0x2000 0 0 0 0 0 0 [(1, 0x0408)]) (fun t => decide (8192 ≤ t.pc.toNat)) = true ∧
    stepGives (mkState 0 0 0 0 0 0 0 0 [(0, 0xC07E)]) (fun t => decide (8192 ≤ t.pc.toNat)) = true ∧
    stepGives (mkState 8191 0 0 0 0 0 0 0 []) (fun t => decide (8192 ≤ t.pc.toNat)) = true := by decide

theorem test_witness_StepReadsOnlyTheFetchedAndLoadedWord :
    (mkState 0 1 0 0 0 0 0 0 [(0, 0x8500), (1, 5), (9, 9)]).fetch = (mkState 0 1 0 0 0 0 0 0 [(0, 0x8500), (1, 5)]).fetch ∧
    (∀ rA rB imm7, decode (mkState 0 1 0 0 0 0 0 0 [(0, 0x8500), (1, 5), (9, 9)]).fetch = .lw rA rB imm7 →
      (mkState 0 1 0 0 0 0 0 0 [(0, 0x8500), (1, 5), (9, 9)]).memRead
          (dataIndex (mkState 0 1 0 0 0 0 0 0 [(0, 0x8500), (1, 5), (9, 9)]) rA imm7) =
        (mkState 0 1 0 0 0 0 0 0 [(0, 0x8500), (1, 5)]).memRead
          (dataIndex (mkState 0 1 0 0 0 0 0 0 [(0, 0x8500), (1, 5)]) rA imm7)) ∧
    (∃ t, step (mkState 0 1 0 0 0 0 0 0 [(0, 0x8500), (1, 5), (9, 9)]) = .next t) ∧
    ∃ t, step (mkState 0 1 0 0 0 0 0 0 [(0, 0x8500), (1, 5)]) = .next t := by
  refine ⟨by decide, fun rA rB imm7 h => ?_, ⟨_, rfl⟩, ⟨_, rfl⟩⟩
  have e : Instr.lw 1#3 2#3 0#7 = Instr.lw rA rB imm7 := h
  cases e
  decide

theorem test_witness_StoreThenLoadReturnsTheValue :
    (2#3 : RegIdx) ≠ 0#3 ∧ ∃ t, exec (.sw 0 1 20) (mkState 0 42 0 0 0 0 0 0 []) = .next t := ⟨by decide, _, rfl⟩

theorem test_witness_StoredWordIsTheNextFetched :
    decode (mkState 1 0x2109 0 0 0 0 0 0 [(1, 0xA082)]).fetch = .sw 0 1 2 ∧
    stepGives (mkState 1 0x2109 0 0 0 0 0 0 [(1, 0xA082)])
      (fun t => t.pc.toNat % 8192 == dataIndex (mkState 1 0x2109 0 0 0 0 0 0 [(1, 0xA082)]) 0 2) = true := by decide

theorem test_witness_JrSevenReturnsFromJal :
    ∃ t, exec (.jal 5) (mkState 1 0 0 0 0 0 0 0 []) = .next t ∧ t.readReg 7#3 = t.readReg 7#3 := ⟨_, rfl, rfl⟩

theorem test_witness_AliasedSelfJumpRunsThenHalts :
    (0x4003#16).toNat / 8192 = 2 ∧ 8192 ≤ (mkState 0x2003 0 0 0 0 0 0 0 [(3, 0x4003)]).pc.toNat ∧
    decode (mkState 0x2003 0 0 0 0 0 0 0 [(3, 0x4003)]).fetch = .j 3 ∧
    (3#13).toNat = (mkState 0x2003 0 0 0 0 0 0 0 [(3, 0x4003)]).pc.toNat % 8192 := by decide

theorem test_witness_StepRunsTheDecodedInstruction :
    decode ((mkState 0x2003 0 0 0 0 0 0 0 [(3, 0x860C)]).memRead (0x2003 % 8192)) = .lw 1 4 12 := by decide

theorem test_witness_WithFetchWordRunsNext :
    (65535 : Nat) < 65536 ∧ (State.reset.withFetchWord 16 65535).fetch = 0xFFFF#16 := by decide

theorem test_witness_StepAgreesWithTheThreeOutcomes :
    (∃ t, specStep State.reset = .next t) ∧ specStep (mkState 0 0 0 0 0 0 0 0 [(0, 0x4000)]) = .halt ∧
    specStep (mkState 0 0 0 0 0 0 0 0 [(0, 5)]) = .stall := ⟨⟨_, rfl⟩, by decide, by decide⟩

theorem test_witness_HaltAndStallAreFixedPoints :
    Reaches (mkState 0 0 0 0 0 0 0 0 [(0, 0x4000)]) (mkState 0 0 0 0 0 0 0 0 [(0, 0x4000)]) ∧
    Reaches (mkState 0 0 0 0 0 0 0 0 [(0, 5)]) (mkState 0 0 0 0 0 0 0 0 [(0, 5)]) := ⟨.tail .refl rfl, .tail .refl rfl⟩

theorem test_witness_RunUnderFuelFindsTheFinalState :
    1 ≤ 2 ∧ runToHalt 1 (mkState 0 0 0 0 0 0 0 0 [(0, 0x4000)]) = .halted (mkState 0 0 0 0 0 0 0 0 [(0, 0x4000)]) := by decide

theorem test_witness_SelfLoopsOtherThanJNeverHalt :
    (decode (mkState 1 0 0 0 0 0 0 0 [(1, 0x6001)]).fetch = .jal 1 ∧ (1#13).toNat = (mkState 1 0 0 0 0 0 0 0 []).pc.toNat) ∧
    (decode (mkState 5 5 0 0 0 0 0 0 [(5, 0x0408)]).fetch = .jr 1 ∧ (mkState 5 5 0 0 0 0 0 0 []).readReg 1 = 5#16) ∧
    (decode (mkState 7 0 0 0 0 0 0 0 [(7, 0xC07F)]).fetch = .jeq 0 0 0x7F ∧ sx7 0x7F = -1) := by decide

theorem test_witness_ReportReadsTheWholeHaltedState :
    (mkState 0 0 0 0 0 0 0 0 [(0, 0x4000)]).halted = true ∧ State.reset.halted = false := by decide

end Sys2Proof.Tests
end

section
/-! PROOFS. What holds of the start states: the canonical form of a loaded memory (log 5) and the one start state that
`State.reset` is (log 6). -/

namespace Sys2Proof.Machine

/-- A `MEM_INIT` that declares no Word leaves no cell (R6, R35). -/
theorem Memory.cellsFrom_undeclared (a n : Nat) :
    Memory.cellsFrom (fun _ => Config.undeclaredWord) a n = [] := by
  induction n generalizing a with
  | zero => rfl
  | succ n ih => simpa [Memory.cellsFrom] using ih (a + 1)

/-- The memory of every `MEM_INIT` is in canonical form. -/
theorem Memory.ofInit_wf (memInit : Nat → Word) : (Memory.ofInit memInit).wf :=
  Memory.cellsFrom_wf memInit 0 Config.memWords (by omega)

end Sys2Proof.Machine

namespace Sys2Proof.Proofs

open Sys2Proof Sys2Proof.Machine

/-- Settles O2: with nothing declared the loader's list of cells is empty, which is the memory of `State.reset`. -/
theorem resetIsStartWithNothingLoaded : Obligations.ResetIsStartWithNothingLoaded := by
  have noCells : Memory.ofInit (fun _ => 0#16) = [] := Memory.cellsFrom_undeclared 0 Config.memWords
  simp only [Obligations.ResetIsStartWithNothingLoaded, State.reset, State.start, noCells]

/-- Settles O4: `State.start` takes its memory from `Memory.ofInit`. -/
theorem loadedMemoryIsCanonical : Obligations.LoadedMemoryIsCanonical :=
  fun memInit => Memory.ofInit_wf memInit

end Sys2Proof.Proofs
end

section
/-! PROOFS. The decoded bundle against the decoded instruction (R91): one statement per constructor. The decoder and the bundle
are written apart in the model, `decode` for the meanings and `decodeBundle` for the hardware view. -/

namespace Sys2Proof.Machine

/-- The bundle `d`, decoded at `pc`, says what the instruction says: its tag (R81), the operands that the instruction has (R91),
and the halt flag, which a j alone can have (R92, R93). -/
def BundleOf (pc : Word) (d : Decoded) : Instr → Prop
  | .add rA rB rD => d.tag = .add ∧ d.halt = false ∧ d.rA = rA ∧ d.rB = rB ∧ d.rD = rD
  | .sub rA rB rD => d.tag = .sub ∧ d.halt = false ∧ d.rA = rA ∧ d.rB = rB ∧ d.rD = rD
  | .or rA rB rD => d.tag = .or ∧ d.halt = false ∧ d.rA = rA ∧ d.rB = rB ∧ d.rD = rD
  | .and rA rB rD => d.tag = .and ∧ d.halt = false ∧ d.rA = rA ∧ d.rB = rB ∧ d.rD = rD
  | .slt rA rB rD => d.tag = .slt ∧ d.halt = false ∧ d.rA = rA ∧ d.rB = rB ∧ d.rD = rD
  | .jr rA => d.tag = .jr ∧ d.halt = false ∧ d.rA = rA
  | .addi rA rB imm7 => d.tag = .addi ∧ d.halt = false ∧ d.rA = rA ∧ d.rB = rB ∧ d.imm7 = imm7
  | .j imm13 => d.tag = .j ∧ d.halt = (zext16 imm13 == pc) ∧ d.imm13 = imm13
  | .jal imm13 => d.tag = .jal ∧ d.halt = false ∧ d.imm13 = imm13
  | .lw rA rB imm7 => d.tag = .lw ∧ d.halt = false ∧ d.rA = rA ∧ d.rB = rB ∧ d.imm7 = imm7
  | .sw rA rB imm7 => d.tag = .sw ∧ d.halt = false ∧ d.rA = rA ∧ d.rB = rB ∧ d.imm7 = imm7
  | .jeq rA rB imm7 => d.tag = .jeq ∧ d.halt = false ∧ d.rA = rA ∧ d.rB = rB ∧ d.imm7 = imm7
  | .slti rA rB imm7 => d.tag = .slti ∧ d.halt = false ∧ d.rA = rA ∧ d.rB = rB ∧ d.imm7 = imm7
  | .reserved5 _ | .reserved6 _ | .reserved7 _ | .reserved9 _ | .reserved10 _ | .reserved11 _ | .reserved12 _
  | .reserved13 _ | .reserved14 _ | .reserved15 _ => d.tag = .reserved ∧ d.halt = false

/-- The two decoders agree on every Word: by its opcode, and for opcode 000 by its func (R63, R68, R91). -/
theorem bundleOf_decode (w pc : Word) : BundleOf pc (decodeBundle w pc) (decode w) := by
  rcases opcode_cases (extract w 13 3) with op | op | op | op | op | op | op | op
  · rcases func_cases (extract w 0 4) with
      fn | fn | fn | fn | fn | fn | fn | fn | fn | fn | fn | fn | fn | fn | fn | fn <;>
      simp [decode, decodeBundle, decodeTag, BundleOf, op, fn]
  all_goals simp [decode, decodeBundle, decodeTag, BundleOf, op]

end Sys2Proof.Machine
end

section
/-! PROOFS. The clock edge of the hardware view, one lemma per kind of row of the selection table (R177), in the operations that
the meanings use. -/

namespace Sys2Proof.Machine

theorem State.eq_of_fields {s t : State} (regs : s.regs = t.regs) (pc : s.pc = t.pc) (mem : s.mem = t.mem) : s = t := by
  cases s; cases t; simp_all

/-- The low 13 bits of an address name the Word that the address names (R41, R161, R169). -/
theorem extract_index_toNat (a : Word) : (extract a 0 13).toNat = wrapIndex a.toNat := by
  simp [extract_toNat, wrapIndex]

/-- The hardware fetches the Word that `State.fetch` is (R90, R161). -/
theorem read_imemAddr (s : State) : s.mem.read (imemAddr s.pc).toNat = s.fetch := by
  rw [imemAddr, extract_index_toNat]
  exact Memory.read_mod s.mem s.pc.toNat

variable {s : State}

/-- The step's row of the selection table. -/
theorem muxOut_fetch (s : State) :
    muxOut s.regs s.pc s.fetch = select s.decoded (sameWord (s.readReg s.decoded.rA) (s.readReg s.decoded.rB)) := rfl

/-- A row that writes nothing and sets the pc (R168 to R171). -/
theorem clockEdge_selectPcOnly {sel : PcSel} (row : muxOut s.regs s.pc s.fetch = selectPcOnly sel) :
    clockEdge false s = s.setPc (nextPc s.regs s.pc s.fetch) := by
  simp [clockEdge, read_imemAddr, nextRegs, nextMem, outputs, row, selectPcOnly, State.setPc]

/-- A row that writes the ALU result to register `rd` (R163 to R168). -/
theorem clockEdge_selectAlu {op : AluOp} {b : AluBSel} {waddr : WaddrSel} {rd : RegIdx} {r : Word}
    (row : muxOut s.regs s.pc s.fetch = selectAlu op b waddr)
    (dest : writeAddress s.regs s.pc s.fetch = some rd) (result : aluOut s.regs s.pc s.fetch = some r) :
    clockEdge false s = (s.writeReg rd r).advance := by
  apply State.eq_of_fields <;>
    simp [clockEdge, read_imemAddr, nextRegs, nextPc, nextMem, outputs, writeData, dest, result, row, selectAlu]

/-- add, sub, or, and, slt: the ALU on two registers, to rD (R177). -/
theorem clockEdge_aluReg {op : AluOp} (row : muxOut s.regs s.pc s.fetch = selectAlu op .reg .rD) :
    clockEdge false s =
      (s.writeReg s.decoded.rD (alu op (s.readReg s.decoded.rA) (s.readReg s.decoded.rB))).advance :=
  clockEdge_selectAlu row (by simp [writeAddress, row, selectAlu, State.decoded])
    (by simp [aluOut, row, selectAlu, State.decoded, State.readReg])

/-- addi and slti: the ALU on a register and the immediate, to rB (R177). -/
theorem clockEdge_aluImm {op : AluOp} (row : muxOut s.regs s.pc s.fetch = selectAlu op .imm .rB) :
    clockEdge false s =
      (s.writeReg s.decoded.rB (alu op (s.readReg s.decoded.rA) (sext16 s.decoded.imm7))).advance :=
  clockEdge_selectAlu row (by simp [writeAddress, row, selectAlu, State.decoded])
    (by simp [aluOut, row, selectAlu, State.decoded, State.readReg])

/-- What the address port of lw and sw carries (R130, R169). -/
theorem dmemAddr_effectiveAddress
    (op : (muxOut s.regs s.pc s.fetch).aluOp = some .add) (b : (muxOut s.regs s.pc s.fetch).aluBSel = some .imm) :
    (outputs s.regs s.pc s.fetch).dmemAddr = some (extract (effectiveAddress s s.decoded.rA s.decoded.imm7) 0 13) := by
  simp [outputs, aluOut, op, b, alu, effectiveAddress, State.readReg, State.decoded]

/-- lw: the Word on the data port, to rB (R131, R177). -/
theorem clockEdge_lw (tag : s.decoded.tag = .lw) :
    clockEdge false s =
      (s.writeReg s.decoded.rB (s.memRead (dataIndex s s.decoded.rA s.decoded.imm7))).advance := by
  have row := muxOut_fetch s
  simp only [select, tag] at row
  have addr := dmemAddr_effectiveAddress (s := s) (by rw [row]) (by rw [row])
  have we : (outputs s.regs s.pc s.fetch).dmemWe = false := by simp [outputs, row]
  apply State.eq_of_fields <;>
    simp [clockEdge, read_imemAddr, nextRegs, nextPc, nextMem, writeAddress, writeData, row, addr, we,
      extract_index_toNat, State.decoded, State.memRead, dataIndex]

/-- sw: the Word of rB, to the data port (R132, R177). -/
theorem clockEdge_sw (tag : s.decoded.tag = .sw) :
    clockEdge false s =
      (s.memWrite (dataIndex s s.decoded.rA s.decoded.imm7) (s.readReg s.decoded.rB)).advance := by
  have row := muxOut_fetch s
  simp only [select, tag] at row
  have addr := dmemAddr_effectiveAddress (s := s) (by rw [row]) (by rw [row])
  have we : (outputs s.regs s.pc s.fetch).dmemWe = true := by simp [outputs, row]
  have wdata : (outputs s.regs s.pc s.fetch).dmemWdata = s.readReg s.decoded.rB := rfl
  apply State.eq_of_fields <;>
    simp [clockEdge, read_imemAddr, nextRegs, nextPc, nextMem, row, addr, we, wdata, extract_index_toNat, dataIndex]

/-- jal: the link to register 7, the target to the pc (R144, R177). -/
theorem clockEdge_jal (tag : s.decoded.tag = .jal) :
    clockEdge false s = (s.writeReg Config.linkReg s.pcPlusOne).setPc (jumpTarget s.decoded.imm13) := by
  have row := muxOut_fetch s
  simp only [select, tag] at row
  apply State.eq_of_fields <;>
    simp [clockEdge, read_imemAddr, nextRegs, nextPc, nextMem, outputs, writeAddress, writeData, row,
      State.pcPlusOne, State.decoded, jumpTarget]

/-- A held pc: nothing changes (R171). -/
theorem clockEdge_hold (row : muxOut s.regs s.pc s.fetch = selectPcOnly .hold) : clockEdge false s = s := by
  rw [clockEdge_selectPcOnly row]
  simp [nextPc, row, selectPcOnly, State.setPc]

end Sys2Proof.Machine
end

section
/-! PROOFS. The two views of a step agree in every state: the meanings of files 40 to 44 and the clock edge of file 45 (R160,
R173). -/

namespace Sys2Proof.Machine

/-- An instruction that the hardware's bundle says has, as its meaning, the clock edge. -/
theorem exec_eq_clockEdge {i : Instr} {s : State} (bundle : BundleOf s.pc s.decoded i) :
    exec i s = .next (clockEdge false s) := by
  have row := muxOut_fetch s
  cases i with
  | add rA rB rD | sub rA rB rD | or rA rB rD | and rA rB rD | slt rA rB rD =>
    obtain ⟨tag, -, rfl, rfl, rfl⟩ := bundle
    simp only [select, tag] at row
    rw [clockEdge_aluReg row]
    rfl
  | addi rA rB imm7 =>
    obtain ⟨tag, -, rfl, rfl, rfl⟩ := bundle
    simp only [select, tag] at row
    rw [clockEdge_aluImm row]
    rfl
  | slti rA rB imm7 =>
    obtain ⟨tag, -, rfl, rfl, rfl⟩ := bundle
    simp only [select, tag] at row
    rw [clockEdge_aluImm row, alu, signed16_sext16]
    rfl
  | lw rA rB imm7 =>
    obtain ⟨tag, -, rfl, rfl, rfl⟩ := bundle
    rw [clockEdge_lw tag]
    rfl
  | sw rA rB imm7 =>
    obtain ⟨tag, -, rfl, rfl, rfl⟩ := bundle
    rw [clockEdge_sw tag]
    rfl
  | jal imm13 =>
    obtain ⟨tag, -, rfl⟩ := bundle
    rw [clockEdge_jal tag]
    rfl
  | jr rA =>
    obtain ⟨tag, -, rfl⟩ := bundle
    simp only [select, tag] at row
    rw [clockEdge_selectPcOnly row]
    simp only [exec, execJr, nextPc, row, selectPcOnly]
    rfl
  | jeq rA rB imm7 =>
    obtain ⟨tag, -, rfl, rfl, rfl⟩ := bundle
    simp only [select, tag] at row
    rw [clockEdge_selectPcOnly row]
    simp only [exec, execJeq, jumpTo, nextPc, row, selectPcOnly]
    split <;> rfl
  | j imm13 =>
    obtain ⟨tag, halt, rfl⟩ := bundle
    simp only [select, tag, halt] at row
    by_cases self : targetsItself s s.decoded.imm13 = true
    · have target : zext16 s.decoded.imm13 = s.pc := (targetsItself_iff s _).mp self
      rw [clockEdge_hold (by simpa [target] using row)]
      simp [exec, execJ, self, haltStep]
    · have ne : zext16 s.decoded.imm13 ≠ s.pc := fun eq => self ((targetsItself_iff s _).mpr eq)
      simp only [beq_eq_false_iff_ne.mpr ne, Bool.false_eq_true, if_false] at row
      rw [clockEdge_selectPcOnly row]
      simp only [exec, execJ, if_neg self, nextPc, row, selectPcOnly]
      rfl
  | reserved5 x | reserved6 x | reserved7 x | reserved9 x | reserved10 x | reserved11 x | reserved12 x
  | reserved13 x | reserved14 x | reserved15 x =>
    obtain ⟨tag, -⟩ := bundle
    simp only [select, tag] at row
    rw [clockEdge_hold row]
    rfl

/-- The step is the clock edge, in every state (R173). -/
theorem step_eq_clockEdge (s : State) : step s = .next (clockEdge false s) :=
  exec_eq_clockEdge (bundleOf_decode s.fetch s.pc)

/-! ## Halt and Stall -/

/-- The halt flag is up for a j alone (R93). -/
theorem tag_of_halted {s : State} (h : s.halted = true) : s.decoded.tag = .j := by
  have flag : (extract s.fetch 13 3 == 0b010#3 && zext16 (extract s.fetch 0 13) == s.pc) = true := h
  obtain ⟨op, -⟩ := Bool.and_eq_true_iff.mp flag
  simp [State.decoded, decodeBundle, decodeTag, eq_of_beq op]

theorem stalled_iff (s : State) : s.stalled = true ↔ s.decoded.tag = .reserved := by simp [State.stalled]

/-- No core is halted and stalled at once: a halt is a j, a stall is a reserved-func word (R93, R146). -/
theorem not_halted_and_stalled (s : State) : ¬ (s.halted = true ∧ s.stalled = true) := by
  rintro ⟨halted, stalled⟩
  have reserved := (stalled_iff s).mp stalled
  rw [tag_of_halted halted] at reserved
  cases reserved

/-- The gate of R171: where either output is up the pc is held. -/
theorem clockEdge_of_halted {s : State} (h : s.halted = true) : clockEdge false s = s := by
  have up : s.decoded.halt = true := h
  exact clockEdge_hold (by simp [muxOut_fetch, select, tag_of_halted h, up])

theorem clockEdge_of_stalled {s : State} (h : s.stalled = true) : clockEdge false s = s :=
  clockEdge_hold (by simp [muxOut_fetch, select, (stalled_iff s).mp h])

/-- R96: a halting step answers the same state (as log 1 carries it). -/
theorem step_of_halted {s : State} (h : s.halted = true) : step s = .next s := by
  rw [step_eq_clockEdge, clockEdge_of_halted h]

/-- R146: a stalling step answers the same state (as log 2 carries it). -/
theorem step_of_stalled {s : State} (h : s.stalled = true) : step s = .next s := by
  rw [step_eq_clockEdge, clockEdge_of_stalled h]

/-! ## When each of the three outcomes comes -/

theorem specStep_eq_next_iff (s t : State) :
    specStep s = .next t ↔ s.halted = false ∧ s.stalled = false ∧ t = clockEdge false s := by
  cases halted : s.halted <;> cases stalled : s.stalled <;>
    simp [specStep, halted, stalled, eq_comm (a := t)]

theorem specStep_eq_halt_iff (s : State) : specStep s = .halt ↔ s.halted = true := by
  cases halted : s.halted <;> cases stalled : s.stalled <;> simp [specStep, halted, stalled]

theorem specStep_eq_stall_iff (s : State) : specStep s = .stall ↔ s.halted = false ∧ s.stalled = true := by
  cases halted : s.halted <;> cases stalled : s.stalled <;> simp [specStep, halted, stalled]

end Sys2Proof.Machine

namespace Sys2Proof.Proofs

open Sys2Proof Sys2Proof.Machine

/-- Settles O49: `Next` is the clock edge, which the step is in every state; `Halt` and `Stall` hold the pc. -/
theorem stepAgreesWithTheThreeOutcomes : Obligations.StepAgreesWithTheThreeOutcomes := by
  intro s
  refine ⟨fun t next => ?_, fun halt => ?_, fun stall => ?_, not_halted_and_stalled s⟩
  · obtain ⟨noHalt, noStall, rfl⟩ := (specStep_eq_next_iff s t).mp next
    exact ⟨step_eq_clockEdge s, noHalt, noStall⟩
  · have halted := (specStep_eq_halt_iff s).mp halt
    exact ⟨step_of_halted halted, halted⟩
  · obtain ⟨-, stalled⟩ := (specStep_eq_stall_iff s).mp stall
    exact ⟨step_of_stalled stalled, stalled⟩

end Sys2Proof.Proofs
end

section
/-! PROOFS. The canonical form of memory (log 5): every step keeps it, and memories in it are equal data when they read alike
(20_memory.md R41). -/

namespace Sys2Proof.Machine

/-! ## The invariant -/

/-- A store is the one way an instruction can touch memory, and a write keeps the form (R41, R54). -/
theorem exec_keeps_wf {i : Instr} {s t : State} (wf : s.mem.wf) (h : exec i s = .next t) : t.mem.wf := by
  obtain ⟨d, v, rfl⟩ | ⟨rA, rB, imm7, -, rfl⟩ | ⟨p, rfl⟩ | ⟨imm13, -, rfl⟩ | rfl := exec_cases h
  case inr.inl => exact Memory.write_wf s.mem _ _ wf
  all_goals exact wf

/-! ## The cells of a memory, from its reads -/

/-- A Word other than 0 is read from a cell. -/
theorem Memory.mem_of_cellAt {m : Memory} {i : Nat} (declared : m.cellAt i ≠ Config.undeclaredWord) :
    (i, m.cellAt i) ∈ m := by
  induction m with
  | nil => exact absurd rfl declared
  | cons c m ih =>
    unfold Memory.cellAt at declared ⊢
    split
    · next h => subst h; exact List.mem_cons_self
    · next h => exact List.mem_cons_of_mem _ (ih (by simpa only [if_neg h] using declared))

/-- Where the indices rise, a cell is what its index reads as. -/
theorem Memory.cellAt_of_mem {m : Memory} {c : Nat × Word} (rising : m.Pairwise (fun c d => c.1 < d.1))
    (hc : c ∈ m) : m.cellAt c.1 = c.2 := by
  induction m with
  | nil => simp at hc
  | cons d m ih =>
    obtain ⟨below, rising⟩ := List.pairwise_cons.mp rising
    rcases List.mem_cons.mp hc with rfl | hc
    · simp [Memory.cellAt]
    · have ne : d.1 ≠ c.1 := Nat.ne_of_lt (below c hc)
      simpa [Memory.cellAt, ne] using ih rising hc

/-- The cells of a canonical memory are its indices that read as something other than 0. -/
theorem Memory.mem_iff_read {m : Memory} (wf : m.wf) (c : Nat × Word) :
    c ∈ m ↔ c.1 < Config.memWords ∧ m.read c.1 = c.2 ∧ c.2 ≠ Config.undeclaredWord := by
  obtain ⟨rising, cells⟩ := wf
  constructor
  · intro hc
    obtain ⟨lt, ne⟩ := cells c hc
    refine ⟨lt, ?_, ne⟩
    rw [Memory.read, wrapIndex, Nat.mod_eq_of_lt lt, Memory.cellAt_of_mem rising hc]
  · rintro ⟨lt, word, ne⟩
    rw [Memory.read, wrapIndex, Nat.mod_eq_of_lt lt] at word
    have found : (c.1, m.cellAt c.1) ∈ m := Memory.mem_of_cellAt (word ▸ ne)
    rwa [word] at found

/-- Reads determine the cells, and the rising order determines their place in the list. -/
theorem Memory.eq_of_read {m n : Memory} (hm : m.wf) (hn : n.wf) (alike : ∀ a, m.read a = n.read a) : m = n := by
  have : Std.Asymm (fun c d : Nat × Word => c.1 < d.1) := ⟨fun _ _ => Nat.lt_asymm⟩
  refine hm.1.eq_of_mem_iff hn.1 fun c => ?_
  rw [Memory.mem_iff_read hm, Memory.mem_iff_read hn, alike]

end Sys2Proof.Machine

namespace Sys2Proof.Proofs

open Sys2Proof Sys2Proof.Machine

/-- Settles O6: a step is the meaning of the fetched instruction, and every meaning keeps the form. -/
theorem everyStepKeepsMemoryCanonical : Obligations.EveryStepKeepsMemoryCanonical :=
  fun _ _ wf next => exec_keeps_wf wf next

/-- Settles O7: the cells of a canonical memory are known from its reads. -/
theorem canonicalMemoriesThatReadAlikeAreEqual : Obligations.CanonicalMemoriesThatReadAlikeAreEqual :=
  fun _ _ hm hn alike => Memory.eq_of_read hm hn alike

/-- Settles O3: nothing is loaded at `State.reset`, and the empty list is canonical. -/
theorem resetMemoryIsCanonical : Obligations.ResetMemoryIsCanonical := Memory.wf_nil

end Sys2Proof.Proofs
end

section
/-! PROOFS. What an instruction changes, by its destination in the table of R70 and its new pc in the table of R26. -/

namespace Sys2Proof.Machine

open Sys2Proof.Claims

/-! ## Register 0 -/

@[simp] theorem readReg_zero (s : State) : s.readReg 0#3 = 0#16 := rfl

@[simp] theorem writeReg_zero (s : State) (v : Word) : s.writeReg 0#3 v = s := rfl

/-! ## The halting j -/

/-- A halting j answers the state that jumping to its target, its own pc, would: every j sets the pc and nothing else, as log 1
carries the halt (R143, R145). -/
theorem exec_j (imm13 : Imm13) (s : State) : exec (.j imm13) s = jumpTo s (jumpTarget imm13) := by
  simp only [exec, execJ]
  split
  · next self =>
    have target : jumpTarget imm13 = s.pc := (targetsItself_iff s imm13).mp self
    rw [target]
    rfl
  · rfl

/-! ## The registers -/

/-- An instruction with a destination writes it back and goes on, except that jal jumps (R70, R97, R144). -/
theorem exec_of_destination {i : Instr} {d : RegIdx} (dest : destination i = some d) (s : State) :
    (∃ v, exec i s = writeBack s d v) ∨ ∃ imm13, i = .jal imm13 := by
  cases i with
  | add rA rB rD | sub rA rB rD | or rA rB rD | and rA rB rD | slt rA rB rD => cases dest; exact .inl ⟨_, rfl⟩
  | addi rA rB imm7 | slti rA rB imm7 | lw rA rB imm7 => cases dest; exact .inl ⟨_, rfl⟩
  | jal imm13 => exact .inr ⟨imm13, rfl⟩
  | _ => cases dest

/-- An instruction without a destination writes no register (R70). -/
theorem exec_regs_of_no_destination {i : Instr} {s t : State} (dest : destination i = none)
    (h : exec i s = .next t) : t.regs = s.regs := by
  cases i with
  | jr rA | jeq rA rB imm7 => exact (jumpTo_spec h).1
  | sw rA rB imm7 => exact (storeBack_spec h).1
  | j imm13 => rw [exec_j] at h; exact (jumpTo_spec h).1
  | reserved5 x | reserved6 x | reserved7 x | reserved9 x | reserved10 x | reserved11 x | reserved12 x
  | reserved13 x | reserved14 x | reserved15 x => rw [stallStep_spec h]
  | _ => cases dest

/-- A register other than the destination reads as before (R23). -/
theorem exec_readReg_frame {i : Instr} {s t : State} (h : exec i s = .next t) {r : RegIdx}
    (other : destination i ≠ some r) : t.readReg r = s.readReg r := by
  cases dest : destination i with
  | none => exact congrArg (RegFile.read · r) (exec_regs_of_no_destination dest h)
  | some d =>
    have ne : r ≠ d := fun eq => other (eq ▸ dest)
    obtain ⟨v, wb⟩ | ⟨imm13, rfl⟩ := exec_of_destination dest s
    · rw [(writeBack_spec (wb ▸ h)).1 r, if_neg fun both => ne both.1]
    · cases h; cases dest
      rw [setPc_readReg, readReg_writeReg, if_neg fun both => ne both.1]

/-! ## The memory -/

/-- An address whose index sw does not store to reads as before (R54). -/
theorem exec_memRead_frame {i : Instr} {s t : State} (h : exec i s = .next t) {a : Nat}
    (other : storeIndex s i ≠ some (a % 8192)) : t.memRead a = s.memRead a := by
  obtain ⟨d, v, rfl⟩ | ⟨rA, rB, imm7, rfl, rfl⟩ | ⟨p, rfl⟩ | ⟨imm13, -, rfl⟩ | rfl := exec_cases h
  case inr.inl =>
    have ne : a % 8192 ≠ dataIndex s rA imm7 := fun eq => other (congrArg some eq.symm)
    rw [advance_memRead, memRead_memWrite, dataIndex_mod, if_neg ne]
  all_goals rfl

/-! ## The pc -/

/-- The model's sign extension is that of R9. -/
theorem sext7_eq_sx7 (v : Imm7) : sext7 v = sx7 v := sext7_cases v

/-- The sequential row of R26. -/
theorem pcPlusOne_toInt (s : State) : (s.pcPlusOne.toNat : Int) = (s.pc.toNat + 1) % 65536 := by
  rw [pcPlusOne_toNat]; omega

/-- The new pc of every instruction, row by row of R26. -/
theorem exec_newPc {i : Instr} {s t : State} (h : exec i s = .next t) : (t.pc.toNat : Int) = newPc s i := by
  cases i with
  | add rA rB rD | sub rA rB rD | or rA rB rD | and rA rB rD | slt rA rB rD
  | addi rA rB imm7 | slti rA rB imm7 | lw rA rB imm7 | sw rA rB imm7 => cases h; exact pcPlusOne_toInt s
  | jr rA => cases h; rfl
  | jeq rA rB imm7 =>
    rw [(jumpTo_spec h).2.1]
    by_cases same : s.readReg rA = s.readReg rB
    · simp only [sameWord_iff, newPc, if_pos same, branchTarget_toNat, sext7_eq_sx7]
    · simp only [sameWord_iff, newPc, if_neg same, pcPlusOne_toInt]
  | j imm13 =>
    rw [exec_j] at h
    rw [(jumpTo_spec h).2.1, jumpTarget_toNat, newPc]
    split <;> omega
  | jal imm13 => cases h; exact congrArg Nat.cast (jumpTarget_toNat imm13)
  | reserved5 x | reserved6 x | reserved7 x | reserved9 x | reserved10 x | reserved11 x | reserved12 x
  | reserved13 x | reserved14 x | reserved15 x => rw [stallStep_spec h]; rfl

end Sys2Proof.Machine

namespace Sys2Proof.Proofs

open Sys2Proof Sys2Proof.Machine Sys2Proof.Claims

/-- Settles O38: the register frame by destination, the memory frame by the store's index. -/
theorem nothingElseChanges : Obligations.NothingElseChanges :=
  fun _ _ _ next => ⟨fun _ other => exec_readReg_frame next other, fun _ other => exec_memRead_frame next other⟩

/-- Settles O39. -/
theorem newPcIsThatOfTheTable : Obligations.NewPcIsThatOfTheTable := fun _ _ _ next => exec_newPc next

/-- Settles O19: register 0 has no cell to read or write. -/
theorem registerZeroIsHardwired : Obligations.RegisterZeroIsHardwired :=
  fun s => ⟨readReg_zero s, writeReg_zero s⟩

/-- Settles O20: a write-back to register 0 leaves the advance of the pc; jal's destination is register 7. -/
theorem destinationZeroOnlyAdvancesThePc : Obligations.DestinationZeroOnlyAdvancesThePc := by
  intro i s dest
  obtain ⟨v, wb⟩ | ⟨imm13, rfl⟩ := exec_of_destination dest s
  · rw [wb, writeBack, writeReg_zero]
    rfl
  · exact absurd dest (by decide : some 7#3 ≠ some 0#3)

end Sys2Proof.Proofs
end

section
/-! PROOFS. What a step reads of memory: the fetched Word, and the Word that a lw loads (R20, R46). -/

namespace Sys2Proof.Machine

/-- Two states with the same registers and pc run an instruction alike, if a lw loads the same Word in both. -/
theorem exec_alike {i : Instr} {s t s' t' : State} (regs : s.regs = t.regs) (pc : s.pc = t.pc)
    (load : ∀ rA rB imm7, i = .lw rA rB imm7 →
      s.memRead (dataIndex s rA imm7) = t.memRead (dataIndex t rA imm7))
    (hs : exec i s = .next s') (ht : exec i t = .next t') :
    s'.regs = t'.regs ∧ s'.pc = t'.pc ∧ ∀ a, s.memRead a = t.memRead a → s'.memRead a = t'.memRead a := by
  obtain ⟨x, p, m⟩ := s
  obtain ⟨y, q, n⟩ := t
  obtain rfl : x = y := regs
  obtain rfl : p = q := pc
  cases i with
  | lw rA rB imm7 =>
    cases hs; cases ht
    exact ⟨congrArg (x.write rB) (load rA rB imm7 rfl), rfl, fun _ alike => alike⟩
  | sw rA rB imm7 =>
    obtain ⟨regs, pc, stored⟩ := storeBack_spec hs
    obtain ⟨regs', pc', stored'⟩ := storeBack_spec ht
    refine ⟨regs.trans regs'.symm, pc.trans pc'.symm, fun a alike => ?_⟩
    rw [stored, stored', alike]
    rfl
  | j imm13 =>
    rw [exec_j] at hs ht
    cases hs; cases ht
    exact ⟨rfl, rfl, fun _ alike => alike⟩
  -- The others take all they write from registers and pc, and write no memory.
  | _ => cases hs; cases ht; exact ⟨rfl, rfl, fun _ alike => alike⟩

end Sys2Proof.Machine

namespace Sys2Proof.Proofs

open Sys2Proof Sys2Proof.Machine

/-- Settles O41: equal fetched Words decode to the same instruction, which both states run alike. -/
theorem stepReadsOnlyTheFetchedAndLoadedWord : Obligations.StepReadsOnlyTheFetchedAndLoadedWord := by
  intro s t s' t' regs pc fetch load hs ht
  rw [step, ← fetch] at ht
  exact exec_alike regs pc load hs ht

end Sys2Proof.Proofs
end

section
/-! PROOFS. The read-out of a halted core (R36, R175). -/

namespace Sys2Proof.Machine

theorem report_of_not_halted {s : State} (h : s.halted = false) : report s = none := by simp [report, h]

/-- What the reporter reads of the state of a halted core (R36). -/
def State.readOut (s : State) : Report where
  pc := s.pc
  registers := (List.range Config.nregs).map (fun r => dbgRegData s.regs (BitVec.ofNat 3 r))
  memory := (List.range Config.memWords).map s.mem.read

theorem report_of_halted {s : State} (h : s.halted = true) : report s = some s.readOut := by
  simp [report, h, State.readOut]

/-- The registers stand in the order of their indices. -/
theorem readOut_registers (s : State) (r : RegIdx) : s.readOut.registers[r.toNat]? = some (s.readReg r) := by
  have inRange : (List.range Config.nregs)[r.toNat]? = some r.toNat := List.getElem?_range r.isLt
  simp [State.readOut, inRange, dbgRegData, State.readReg]

theorem readOut_memory (s : State) {a : Nat} (h : a < 8192) : s.readOut.memory[a]? = some (s.memRead a) := by
  have inRange : (List.range Config.memWords)[a]? = some a := List.getElem?_range h
  simp [State.readOut, inRange, State.memRead]

end Sys2Proof.Machine

namespace Sys2Proof.Proofs

open Sys2Proof Sys2Proof.Machine

/-- Settles O54: the report is the read-out of the state, given when the core is halted and not before. -/
theorem reportReadsTheWholeHaltedState : Obligations.ReportReadsTheWholeHaltedState := by
  refine fun s => ⟨report_of_not_halted, fun halted => ⟨s.readOut, report_of_halted halted, rfl, ?_⟩⟩
  have registers : s.readOut.registers.length = 8 := by simp [State.readOut]
  have memory : s.readOut.memory.length = 8192 := by simp [State.readOut]
  exact ⟨registers, readOut_registers s, readOut_registers s 0#3, memory, fun _ => readOut_memory s⟩

end Sys2Proof.Proofs
end

section
/-! PROOFS. The aliases of a memory index: every address is reduced modulo 8192 before it is used, so that addresses which agree
modulo 8192 name the same Word (R41, R42). -/

namespace Sys2Proof.Machine

/-- An address and its aliases have one index. -/
theorem wrapIndex_alias (a k : Nat) : wrapIndex (a + 8192 * k) = wrapIndex a := Nat.add_mul_mod_self_left a 8192 k

/-- A read depends on the index of its address alone. -/
theorem Memory.read_of_wrapIndex_eq (m : Memory) {a b : Nat} (same : wrapIndex a = wrapIndex b) : m.read a = m.read b :=
  congrArg m.cellAt same

/-- A write depends on the index of its address alone. -/
theorem Memory.write_of_wrapIndex_eq (m : Memory) {a b : Nat} (same : wrapIndex a = wrapIndex b) (v : Word) :
    m.write a v = m.write b v := by
  rw [Memory.write, same, Memory.write]

/-- The fetch depends on memory and on the index of the pc alone (R90). -/
theorem fetch_of_wrapIndex_eq {s t : State} (mem : s.mem = t.mem) (same : wrapIndex s.pc.toNat = wrapIndex t.pc.toNat) :
    s.fetch = t.fetch := by
  rw [State.fetch, State.memRead, Memory.read_of_wrapIndex_eq s.mem same, mem]
  rfl

/-- A data index depends on the base register's value modulo 8192 alone: 8192 divides 2^16, so the reduction of the sum to 16
bits loses nothing of it (R42, R130). -/
theorem dataIndex_of_base_mod {s t : State} {rA : RegIdx} (imm7 : Imm7)
    (base : (t.readReg rA).toNat % 8192 = (s.readReg rA).toNat % 8192) : dataIndex t rA imm7 = dataIndex s rA imm7 := by
  have ht := dataIndex_eq t rA imm7
  have hs := dataIndex_eq s rA imm7
  omega

/-- A Word and the Word a multiple of 8192 above it, past the wrap-around at 2^16 too, agree modulo 8192. -/
theorem toNat_add_alias_mod (w : Word) (k : Nat) : (w + BitVec.ofNat 16 (8192 * k)).toNat % 8192 = w.toNat % 8192 := by
  rw [BitVec.toNat_add, BitVec.toNat_ofNat]
  omega

end Sys2Proof.Machine

namespace Sys2Proof.Proofs

open Sys2Proof Sys2Proof.Machine

/-- Settles O8: reads, writes, the fetch and the data index each depend on an address through its index alone. -/
theorem aliasesNameTheSameWord : Obligations.AliasesNameTheSameWord := by
  refine ⟨fun m a k v => ⟨?_, ?_⟩, fun s t mem pc => fetch_of_wrapIndex_eq mem pc, fun s t rA imm7 k base => ?_,
    fun s rA imm7 => ?_, fun s base => ?_⟩
  · exact Memory.read_of_wrapIndex_eq m (wrapIndex_alias a k)
  · exact Memory.write_of_wrapIndex_eq m (wrapIndex_alias a k) v
  · exact dataIndex_of_base_mod imm7 (base ▸ toNat_add_alias_mod (s.readReg rA) k)
  · exact Int.emod_emod_of_dvd _ (by decide : (8192 : Int) ∣ 65536)
  · -- The exact sum is 65535 + 18 = 8 * 8192 + 17.
    have index := dataIndex_eq s 6#3 18#7
    rw [base, (by decide : sext7 18#7 = 18)] at index
    exact Int.ofNat.inj index

end Sys2Proof.Proofs
end

section
/-! PROOFS. What a store is to the instruction after it: to a lw that loads its Word (R49) and to the fetch (R52). -/

namespace Sys2Proof.Machine

/-- A completed sw: its index holds the stored register, every other Word is as before, and the registers stay (R132). -/
theorem exec_sw_spec {rA rB : RegIdx} {imm7 : Imm7} {s t : State} (h : exec (.sw rA rB imm7) s = .next t) :
    t.regs = s.regs ∧
      ∀ a, t.memRead a = if a % 8192 = dataIndex s rA imm7 then s.readReg rB else s.memRead a := by
  obtain ⟨regs, -, stored⟩ := storeBack_spec h
  exact ⟨regs, fun a => by rw [stored, dataIndex_mod]⟩

/-- A lw writes the Word at its index back (R131). -/
theorem exec_lw (rA rB : RegIdx) (imm7 : Imm7) (s : State) :
    exec (.lw rA rB imm7) s = writeBack s rB (s.memRead (dataIndex s rA imm7)) := rfl

/-- After a write-back to a register other than 0, that register holds the Word written (R99). -/
theorem writeBack_readReg {s t : State} {d : RegIdx} {v : Word} (ne : d ≠ 0#3) (h : writeBack s d v = .next t) :
    t.readReg d = v := by
  rw [(writeBack_spec h).1, if_pos ⟨rfl, ne⟩]

/-- States with the same registers have the same data indices (R130). -/
theorem dataIndex_of_regs_eq {s t : State} (regs : t.regs = s.regs) (rA : RegIdx) (imm7 : Imm7) :
    dataIndex t rA imm7 = dataIndex s rA imm7 := by
  rw [dataIndex, effectiveAddress, State.readReg, regs]
  rfl

end Sys2Proof.Machine

namespace Sys2Proof.Proofs

open Sys2Proof Sys2Proof.Machine

/-- Settles O42: a sw keeps its base register, even where it stores that register, so the lw has the sw's index. -/
theorem storeThenLoadReturnsTheValue : Obligations.StoreThenLoadReturnsTheValue := by
  intro rA rB rC imm7 s s1 ne sw
  obtain ⟨regs, stored⟩ := exec_sw_spec sw
  have loaded : s1.memRead (dataIndex s1 rA imm7) = s.readReg rB := by
    rw [dataIndex_of_regs_eq regs, stored, if_pos (dataIndex_mod s rA imm7)]
  refine ⟨_, exec_lw rA rC imm7 s1, ?_⟩
  rw [writeBack_readReg ne rfl, loaded]

/-- Settles O43: the storing step runs the Word it fetched before its store; the next fetch is a read of the new memory. -/
theorem storedWordIsTheNextFetched : Obligations.StoredWordIsTheNextFetched := by
  intro rA rB imm7 s t fetched next
  rw [step, fetched] at next
  obtain ⟨-, stored⟩ := exec_sw_spec next
  refine ⟨stored, fun atIndex => ?_⟩
  have refetched : t.fetch = s.readReg rB := by rw [State.fetch, stored, if_pos atIndex]
  rw [step, refetched]

end Sys2Proof.Proofs
end

section
/-! PROOFS. Decoder and encoder against each other (R80): the decoder undoes the encoder on every instruction, and the encoder
undoes the decoder on every Word but the jr words, whose ignored bits it writes as 0 (R71, R77). -/

namespace Sys2Proof

/-! ## From an instruction to its Word and back -/

/-- The decoder reads from each format the fields that the encoder put there (R64 to R68, R72). -/
theorem decode_encode (i : Instr) : decode (encode i) = i := by
  cases i with
  | add rA rB rD | sub rA rB rD | or rA rB rD | and rA rB rD | slt rA rB rD | jr rA =>
    simp only [encode, decode, extract_formatRRR]
  | addi rA rB imm7 | lw rA rB imm7 | sw rA rB imm7 | jeq rA rB imm7 | slti rA rB imm7 =>
    simp only [encode, decode, extract_formatRRI]
  | j imm13 | jal imm13 => simp only [encode, decode, extract_formatJ]
  | reserved5 x | reserved6 x | reserved7 x | reserved9 x | reserved10 x | reserved11 x | reserved12 x
  | reserved13 x | reserved14 x | reserved15 x => simp [encode, decode, extract_formatReserved]

theorem encode_injective {i k : Instr} (same : encode i = encode k) : i = k := by
  rw [← decode_encode i, same, decode_encode]

/-! ## The statements' fields -/

/-- The field by division is the extracted field (R7, R61). -/
theorem slice_eq_extract (w : Word) (lo n : Nat) (h : lo + n ≤ 16) : Claims.slice w lo n = extract w lo n h := by
  apply BitVec.eq_of_toNat_eq
  rw [extract_toNat, Claims.slice, BitVec.toNat_ofNat]

/-! ## The fields of a Word put back in their places -/

/-- Two neighbouring fields, each put at its position, are one field put at the lower position (R80). -/
theorem place_extract_join (w : Word) (pos low high : Nat) (inWord : pos + low + high ≤ 16 := by decide) :
    place (extract w (pos + low) high inWord) (pos + low) ||| place (extract w pos low (by omega)) pos =
      place (extract w pos (high + low) (by omega)) pos := by
  apply BitVec.eq_of_getLsbD_eq
  intro k hk
  simp only [BitVec.getLsbD_eq_getElem hk, BitVec.getElem_or, place_getElem, extract_getLsbD]
  grind

/-- The field of all 16 bits is the Word (R61). -/
theorem place_extract_whole (w : Word) : place (extract w 0 16) 0 = w := by
  simp [place, extract]

/-- The RRR fields tile the Word (R64, R80). -/
theorem fieldsRRR_tile (w : Word) :
    place (extract w 13 3) 13 ||| place (extract w 10 3) 10 ||| place (extract w 7 3) 7 |||
      place (extract w 4 3) 4 ||| place (extract w 0 4) 0 = w := by
  rw [place_extract_join w 10 3 3, place_extract_join w 7 3 6, place_extract_join w 4 3 9, place_extract_join w 0 4 12]
  exact place_extract_whole w

/-- The RRI fields tile the Word (R65, R80). -/
theorem fieldsRRI_tile (w : Word) :
    place (extract w 13 3) 13 ||| place (extract w 10 3) 10 ||| place (extract w 7 3) 7 ||| place (extract w 0 7) 0 = w := by
  rw [place_extract_join w 10 3 3, place_extract_join w 7 3 6, place_extract_join w 0 7 9]
  exact place_extract_whole w

/-- The J fields tile the Word (R66, R80). -/
theorem fieldsJ_tile (w : Word) : place (extract w 13 3) 13 ||| place (extract w 0 13) 0 = w := by
  rw [place_extract_join w 0 13 3]
  exact place_extract_whole w

/-- Opcode, ignored bits and func tile the Word (R72). -/
theorem fieldsReserved_tile (w : Word) :
    place (extract w 13 3) 13 ||| place (extract w 4 9) 4 ||| place (extract w 0 4) 0 = w := by
  rw [place_extract_join w 4 9 3, place_extract_join w 0 4 12]
  exact place_extract_whole w

theorem formatRRR_extract {w : Word} {func : BitVec 4} (op : extract w 13 3 = 0#3) (fn : extract w 0 4 = func) :
    formatRRR (extract w 10 3) (extract w 7 3) (extract w 4 3) func = w := by
  rw [formatRRR, ← op, ← fn, fieldsRRR_tile]

theorem formatRRI_extract {w : Word} {opcode : BitVec 3} (op : extract w 13 3 = opcode) :
    formatRRI opcode (extract w 10 3) (extract w 7 3) (extract w 0 7) = w := by
  rw [formatRRI, ← op, fieldsRRI_tile]

theorem formatJ_extract {w : Word} {opcode : BitVec 3} (op : extract w 13 3 = opcode) :
    formatJ opcode (extract w 0 13) = w := by
  rw [formatJ, ← op, fieldsJ_tile]

theorem formatReserved_extract {w : Word} {func : BitVec 4} (op : extract w 13 3 = 0#3) (fn : extract w 0 4 = func) :
    formatReserved (extract w 4 9) func = w := by
  rw [formatReserved, ← op, ← fn, fieldsReserved_tile]

/-! ## From a Word to its instruction and back -/

/-- A jr word: selected by opcode and func alone (R71). -/
def IsJrWord (w : Word) : Prop := extract w 13 3 = 0#3 ∧ extract w 0 4 = 8#4

/-- The jr words are those of the table's row of jr (R82). -/
theorem isJrWord_iff_matches (w : Word) : IsJrWord w ↔ Claims.Matches w 0xE00F 0x0008 := (matches_func w 8#4).symm

/-- Bits 9:4 do not select jr (R71). -/
theorem isJrWord_of_masked_eq {v w : Word} (h : IsJrWord v) (same : v &&& 0xFC0F#16 = w &&& 0xFC0F#16) : IsJrWord w := by
  have selecting (u : Word) : u &&& 0xFC0F#16 &&& 0xE00F#16 = u &&& 0xE00F#16 := BitVec.and_assoc ..
  rw [isJrWord_iff_matches, Claims.Matches, ← selecting] at h ⊢
  rwa [← same]

theorem decode_of_isJrWord {w : Word} (h : IsJrWord w) : decode w = .jr (extract w 10 3) := by
  obtain ⟨op, fn⟩ := h
  simp only [decode, op, fn]

/-- A jr word comes back from the encoder without its ignored bits: the mask keeps the other fields (R71, R77). -/
theorem encode_decode_of_isJrWord {w : Word} (h : IsJrWord w) : encode (decode w) = w &&& 0xFC0F#16 := by
  have ⟨opW, fnW⟩ := h
  have op : extract (w &&& 0xFC0F#16) 13 3 = 0#3 := by rw [extract_and, opW]; rfl
  have rA : extract (w &&& 0xFC0F#16) 10 3 = extract w 10 3 := by rw [extract_and]; exact BitVec.and_allOnes
  have rB : extract (w &&& 0xFC0F#16) 7 3 = 0#3 := by rw [extract_and]; exact BitVec.and_zero
  have rD : extract (w &&& 0xFC0F#16) 4 3 = 0#3 := by rw [extract_and]; exact BitVec.and_zero
  have fn : extract (w &&& 0xFC0F#16) 0 4 = 8#4 := by rw [extract_and, fnW]; rfl
  have tile := formatRRR_extract op fn
  rw [rA, rB, rD] at tile
  rw [decode_of_isJrWord h, encode, tile]

/-- Every Word but a jr word comes back from the encoder, the reserved-func words too (R80; log 8). -/
theorem encode_decode_of_not_isJrWord {w : Word} (h : ¬ IsJrWord w) : encode (decode w) = w := by
  rcases opcode_cases (extract w 13 3) with op | op | op | op | op | op | op | op
  · have notJr : extract w 0 4 ≠ 8#4 := fun fn => h ⟨op, fn⟩
    rcases func_cases (extract w 0 4) with
      fn | fn | fn | fn | fn | fn | fn | fn | fn | fn | fn | fn | fn | fn | fn | fn <;>
      simp [decode, encode, op, fn, formatRRR_extract, formatReserved_extract] at notJr ⊢
  all_goals simp [decode, encode, op, formatRRI_extract, formatJ_extract]

/-- A reserved func is none of the 13 defined instructions (R72). -/
theorem wellFormed_decode_of_reserved {w : Word} (op : extract w 13 3 = 0#3)
    (fn : (extract w 0 4).toNat ∈ Claims.reservedFuncs) : (decode w).wellFormed = false := by
  rcases func_cases (extract w 0 4) with
    f | f | f | f | f | f | f | f | f | f | f | f | f | f | f | f <;>
    simp [decode, op, f, Claims.reservedFuncs, Instr.wellFormed] at fn ⊢

end Sys2Proof

namespace Sys2Proof.Proofs

open Sys2Proof Sys2Proof.Claims

/-- Settles O9: each format's fields come back from its Word. -/
theorem decodeOfEncodeIsTheInstruction : Obligations.DecodeOfEncodeIsTheInstruction := decode_encode

/-- Settles O10: the fields are those the decoder extracts, and the encoder puts each back at its position. -/
theorem fieldsTileTheWord : Obligations.FieldsTileTheWord := by
  refine ⟨fun w => ?_, fun w => ?_, fun w => ?_, fun w _ other => ?_, fun w jr => ?_⟩
  · simpa [place, slice_eq_extract] using (fieldsRRR_tile w).symm
  · simpa [place, slice_eq_extract] using (fieldsRRI_tile w).symm
  · simpa [place, slice_eq_extract] using (fieldsJ_tile w).symm
  · exact encode_decode_of_not_isJrWord fun jr => other ((isJrWord_iff_matches w).mp jr)
  · exact encode_decode_of_isJrWord ((isJrWord_iff_matches w).mpr jr)

/-- Settles O11: the encoder gives back every Word but the jr words, and a reserved func is not that of jr. -/
theorem reservedWordsKeepTheirBits : Obligations.ReservedWordsKeepTheirBits := by
  intro w high low
  have op : extract w 13 3 = 0#3 := BitVec.eq_of_toNat_eq (by rw [extract_toNat]; exact congrArg (· % 8) high)
  have fn : (extract w 0 4).toNat ∈ reservedFuncs := by rwa [extract_toNat, pow_zero, Nat.div_one]
  refine ⟨wellFormed_decode_of_reserved op fn, encode_decode_of_not_isJrWord fun ⟨_, jrFunc⟩ => ?_⟩
  rw [jrFunc] at fn
  exact absurd fn (by decide)

/-- Settles O15: the bits taken are a shift and a remainder. -/
theorem extractIsDivisionAndRemainder : Obligations.ExtractIsDivisionAndRemainder := extract_toNat

/-- Settles O18: the decoder runs on each listed Word. -/
theorem listedWordsDecodeAsListed : Obligations.ListedWordsDecodeAsListed := by
  unfold Obligations.ListedWordsDecodeAsListed
  decide

end Sys2Proof.Proofs
end

section
/-! PROOFS. The opcode table (R82): every Word matches the row of its instruction and no other row, and so the jr words are
those that decode to a jr (R71). -/

namespace Sys2Proof

/-- The Word of an instruction matches the instruction's row (R82). -/
theorem encode_and_mask (i : Instr) : encode i &&& i.row.mask = i.row.pattern :=
  match i with
  | .add rA rB rD => Laws.TableRow.add rA rB rD
  | .sub rA rB rD => Laws.TableRow.sub rA rB rD
  | .or rA rB rD => Laws.TableRow.or rA rB rD
  | .and rA rB rD => Laws.TableRow.and rA rB rD
  | .slt rA rB rD => Laws.TableRow.slt rA rB rD
  | .jr rA => Laws.TableRow.jr rA
  | .addi rA rB imm7 => Laws.TableRow.addi rA rB imm7
  | .j imm13 => Laws.TableRow.j imm13
  | .jal imm13 => Laws.TableRow.jal imm13
  | .lw rA rB imm7 => Laws.TableRow.lw rA rB imm7
  | .sw rA rB imm7 => Laws.TableRow.sw rA rB imm7
  | .jeq rA rB imm7 => Laws.TableRow.jeq rA rB imm7
  | .slti rA rB imm7 => Laws.TableRow.slti rA rB imm7
  | .reserved5 x => Laws.TableRow.reserved5 x
  | .reserved6 x => Laws.TableRow.reserved6 x
  | .reserved7 x => Laws.TableRow.reserved7 x
  | .reserved9 x => Laws.TableRow.reserved9 x
  | .reserved10 x => Laws.TableRow.reserved10 x
  | .reserved11 x => Laws.TableRow.reserved11 x
  | .reserved12 x => Laws.TableRow.reserved12 x
  | .reserved13 x => Laws.TableRow.reserved13 x
  | .reserved14 x => Laws.TableRow.reserved14 x
  | .reserved15 x => Laws.TableRow.reserved15 x

/-- Every Word matches the row of the instruction it decodes to (R82). -/
theorem and_mask_of_decode (w : Word) : w &&& (decode w).row.mask = (decode w).row.pattern := by
  by_cases jr : IsJrWord w
  · rw [decode_of_isJrWord jr]
    exact (matches_func w 8#4).mpr jr
  · have matched := encode_and_mask (decode w)
    rwa [encode_decode_of_not_isJrWord jr] at matched

theorem isJrWord_of_decode {w : Word} {rA : RegIdx} (h : decode w = .jr rA) : IsJrWord w := by
  have matched := and_mask_of_decode w
  rw [h] at matched
  exact (matches_func w 8#4).mp matched

/-- The row of every instruction is one of the 23 (R82). -/
theorem row_mem_opcodeTable (i : Instr) : i.row ∈ opcodeTable := by
  cases i <;> simp only [opcodeTable, Instr.row, List.cons_append, List.nil_append, List.mem_cons, true_or, or_true]

/-- Two rows of the table differ in a bit of the match that both masks keep (R73, R82). -/
theorem opcodeTable_disjoint :
    opcodeTable.Pairwise fun r q => r.pattern &&& q.mask ≠ q.pattern &&& r.mask := by decide

/-- No Word matches two rows (R73, R82). -/
theorem opcodeTable_unique {w : Word} {r q : OpcodeRow} (hr : r ∈ opcodeTable) (hq : q ∈ opcodeTable)
    (matchR : w &&& r.mask = r.pattern) (matchQ : w &&& q.mask = q.pattern) : r = q := by
  by_contra ne
  have symmetric : Std.Symm fun r q : OpcodeRow => r.pattern &&& q.mask ≠ q.pattern &&& r.mask :=
    ⟨fun _ _ => Ne.symm⟩
  have apart := opcodeTable_disjoint.forall hr hq ne
  rw [← matchR, ← matchQ, BitVec.and_assoc, BitVec.and_assoc, BitVec.and_comm r.mask] at apart
  exact apart rfl

end Sys2Proof

namespace Sys2Proof.Proofs

open Sys2Proof Sys2Proof.Claims

/-- Settles O13: the decoded instruction's row matches, and any two rows of the table exclude each other. -/
theorem everyWordMatchesExactlyOneRow : Obligations.EveryWordMatchesExactlyOneRow := by
  refine ⟨by decide, fun w => ⟨row_mem_opcodeTable _, fun row mem => ⟨fun matched => ?_, ?_⟩⟩⟩
  · exact opcodeTable_unique mem (row_mem_opcodeTable _) matched (and_mask_of_decode w)
  · rintro rfl
    exact and_mask_of_decode w

/-- Settles O12: a jr word is known from the bits that its encoding keeps, every other Word from its instruction. -/
theorem onlyJrIgnoresBits : Obligations.OnlyJrIgnoresBits := by
  refine ⟨fun w jr => ?_, fun v w jr same => ?_, fun v w _ other same => ?_⟩
  · rw [slice_eq_extract w 10 3 (by decide)]
    exact decode_of_isJrWord ((isJrWord_iff_matches w).mpr jr)
  · have jrV : IsJrWord v := (isJrWord_iff_matches v).mpr jr
    have jrW : IsJrWord w := isJrWord_of_masked_eq jrV same
    apply encode_injective
    rw [encode_decode_of_isJrWord jrV, encode_decode_of_isJrWord jrW, same]
  · have otherV : ¬ IsJrWord v := fun jr => other ((isJrWord_iff_matches v).mp jr)
    have otherW : ¬ IsJrWord w := fun jr => otherV (isJrWord_of_decode (same.trans (decode_of_isJrWord jr)))
    rw [← encode_decode_of_not_isJrWord otherV, same, encode_decode_of_not_isJrWord otherW]

end Sys2Proof.Proofs
end

section
/-! PROOFS. Sign extension (R62): it is the two's complement value of the field. -/

namespace Sys2Proof

theorem signExtend_eq_toInt (n : Nat) (v : BitVec n) (h : 1 ≤ n ∧ n ≤ 15) : signExtend n v h = v.toInt := by
  rw [signExtend, ← BitVec.msb_eq_getLsbD_last, BitVec.toInt_eq_msb_cond]
  norm_cast

end Sys2Proof

namespace Sys2Proof.Proofs

open Sys2Proof Sys2Proof.Machine Sys2Proof.Claims

/-- Settles O16: the value, the range and the round trip are those of `BitVec.toInt`. -/
theorem signExtendIsTwosComplement : Obligations.SignExtendIsTwosComplement := by
  intro n h
  refine ⟨fun v => ?_, fun v => ?_, fun z low high => ?_, sext7_eq_sx7⟩
  · rw [signExtend_eq_toInt, BitVec.toInt_eq_msb_cond, BitVec.msb_eq_decide]
    grind
  · rw [signExtend_eq_toInt]
    exact ⟨BitVec.le_toInt v, BitVec.toInt_lt⟩
  · rw [signExtend_eq_toInt]
    exact BitVec.toInt_ofInt_eq_self h.1 low high

end Sys2Proof.Proofs
end

section
/-! PROOFS. The assembler's lines (R77, R78): an operand in its range is read back from its field, so that a line that assembles
decodes as written; and every instruction has a line. -/

namespace Sys2Proof

open Sys2Proof.Machine Sys2Proof.Claims

/-! ## Operands and their fields -/

theorem asmReg_toNat {n : Nat} (ok : AsmLine.regOk n = true) : (asmReg n).toNat = n := by
  have inRange : n < 8 := of_decide_eq_true ok
  rw [asmReg, BitVec.toNat_ofNat]
  omega

theorem asmImm_value {i : Int} (ok : AsmLine.immOk i = true) : sx7 (asmImm i) = i := by
  obtain ⟨low, high⟩ : -64 ≤ i ∧ i ≤ 63 := of_decide_eq_true ok
  rw [← sext7_eq_sx7, sext7, signExtend_eq_toInt]
  exact BitVec.toInt_ofInt_eq_self (by decide) low (by omega)

theorem asmTarget_toNat {t : Nat} (ok : AsmLine.targetOk t = true) : (asmTarget t).toNat = t := by
  have inRange : t < 8192 := of_decide_eq_true ok
  rw [asmTarget, BitVec.toNat_ofNat]
  omega

@[simp] theorem asmReg_of_field (r : RegIdx) : asmReg r.toNat = r := BitVec.ofNat_toNat ..

@[simp] theorem asmImm_of_field (v : Imm7) : asmImm (sx7 v) = v := by
  rw [← sext7_eq_sx7, sext7, signExtend_eq_toInt]
  exact BitVec.ofInt_toInt

@[simp] theorem asmTarget_of_field (t : Imm13) : asmTarget t.toNat = t := BitVec.ofNat_toNat ..

@[simp] theorem regOk_of_field (r : RegIdx) : AsmLine.regOk r.toNat = true := decide_eq_true r.isLt

@[simp] theorem immOk_of_field (v : Imm7) : AsmLine.immOk (sx7 v) = true := by
  rw [← sext7_eq_sx7]
  exact decide_eq_true (sext7_range v)

@[simp] theorem targetOk_of_field (t : Imm13) : AsmLine.targetOk t.toNat = true := decide_eq_true t.isLt

/-! ## From a line to its instruction -/

theorem assemble_eq_some_iff (addr : Nat) (l : AsmLine) (w : Word) :
    assemble addr l = some w ↔ l.wellFormed addr = true ∧ asmWord addr l = w := by
  simp [assemble]

/-- The encoder writes the ignored bits of jr as 0 (R77). -/
theorem slice_encode_jr (rA : RegIdx) : slice (encode (.jr rA)) 4 6 = 0#6 := by
  rw [slice_eq_extract _ 4 6 (by decide)]
  apply extract_eq
  intro k hk
  interval_cases k <;> simp [encode, formatRRR, place_getElem]

/-- A line in its ranges decodes to what it says. -/
theorem spells_asmWord {addr : Nat} {l : AsmLine} (ok : l.wellFormed addr = true) : Spells addr l (asmWord addr l) := by
  cases l with
  | add d a b | sub d a b | or d a b | and d a b | slt d a b =>
    obtain ⟨⟨hd, ha⟩, hb⟩ : (AsmLine.regOk d = true ∧ AsmLine.regOk a = true) ∧ AsmLine.regOk b = true := by
      simpa [AsmLine.wellFormed] using ok
    exact ⟨_, _, _, decode_encode _, asmReg_toNat ha, asmReg_toNat hb, asmReg_toNat hd⟩
  | jr a => exact ⟨_, decode_encode _, asmReg_toNat ok, slice_encode_jr _⟩
  | addi d a imm | slti d a imm =>
    obtain ⟨⟨hd, ha⟩, hi⟩ : (AsmLine.regOk d = true ∧ AsmLine.regOk a = true) ∧ AsmLine.immOk imm = true := by
      simpa [AsmLine.wellFormed] using ok
    exact ⟨_, _, _, decode_encode _, asmReg_toNat ha, asmReg_toNat hd, asmImm_value hi⟩
  | lw x imm a | sw x imm a =>
    obtain ⟨⟨hx, hi⟩, ha⟩ : (AsmLine.regOk x = true ∧ AsmLine.immOk imm = true) ∧ AsmLine.regOk a = true := by
      simpa [AsmLine.wellFormed] using ok
    exact ⟨_, _, _, decode_encode _, asmReg_toNat ha, asmReg_toNat hx, asmImm_value hi⟩
  | jeq a b off =>
    obtain ⟨⟨ha, hb⟩, hi⟩ : (AsmLine.regOk a = true ∧ AsmLine.regOk b = true) ∧ AsmLine.immOk off = true := by
      simpa [AsmLine.wellFormed] using ok
    exact ⟨_, _, _, decode_encode _, asmReg_toNat ha, asmReg_toNat hb, asmImm_value hi⟩
  | j t | jal t => exact ⟨_, decode_encode _, asmTarget_toNat ok⟩
  | halt => exact ⟨_, decode_encode _, asmTarget_toNat ok⟩
  | nop => exact ⟨(by decide : encode (.add 0 0 0) = 0x0000#16), decode_encode _⟩
  | fill v =>
    have inRange : v < 65536 := of_decide_eq_true ok
    exact Nat.mod_eq_of_lt inRange

/-! ## From an instruction to a line -/

/-- The line that writes an instruction: its row of R77, and for a reserved-func word, which has none, its value (R78). -/
def Instr.line : Instr → AsmLine
  | .add rA rB rD => .add rD.toNat rA.toNat rB.toNat
  | .sub rA rB rD => .sub rD.toNat rA.toNat rB.toNat
  | .or rA rB rD => .or rD.toNat rA.toNat rB.toNat
  | .and rA rB rD => .and rD.toNat rA.toNat rB.toNat
  | .slt rA rB rD => .slt rD.toNat rA.toNat rB.toNat
  | .jr rA => .jr rA.toNat
  | .addi rA rB imm7 => .addi rB.toNat rA.toNat (sx7 imm7)
  | .j imm13 => .j imm13.toNat
  | .jal imm13 => .jal imm13.toNat
  | .lw rA rB imm7 => .lw rB.toNat (sx7 imm7) rA.toNat
  | .sw rA rB imm7 => .sw rB.toNat (sx7 imm7) rA.toNat
  | .jeq rA rB imm7 => .jeq rA.toNat rB.toNat (sx7 imm7)
  | .slti rA rB imm7 => .slti rB.toNat rA.toNat (sx7 imm7)
  | i => .fill (encode i).toNat

/-- The line of an instruction assembles to the instruction's Word, at any address. -/
theorem assemble_line (addr : Nat) (i : Instr) : assemble addr i.line = some (encode i) := by
  rw [assemble_eq_some_iff]
  cases i with
  | reserved5 x | reserved6 x | reserved7 x | reserved9 x | reserved10 x | reserved11 x | reserved12 x
  | reserved13 x | reserved14 x | reserved15 x => exact ⟨decide_eq_true (BitVec.isLt _), BitVec.ofNat_toNat ..⟩
  -- The others have a row of R77: each operand is in its range and comes back from its number.
  | _ => simp [Instr.line, AsmLine.wellFormed, asmWord]

end Sys2Proof

namespace Sys2Proof.Proofs

open Sys2Proof Sys2Proof.Claims

/-- Settles O17: operands in their ranges survive the fields, and the decoder undoes the encoder. -/
theorem assembledLinesDecodeAsWritten : Obligations.AssembledLinesDecodeAsWritten := by
  refine ⟨fun addr l w assembled => ?_, fun i _ => ⟨i.line, assemble_line 0 i⟩⟩
  obtain ⟨ok, rfl⟩ := (assemble_eq_some_iff addr l w).mp assembled
  exact spells_asmWord ok

end Sys2Proof.Proofs
end

section
/-! PROOFS. The decoded bundle in numbers (R91 to R94): its tag by opcode and func, its halt flag by target and pc. -/

namespace Sys2Proof.Machine

open Sys2Proof.Claims

/-! ## The tag -/

theorem opcode_toNat (w : Word) : (extract w 13 3).toNat = w.toNat / 8192 := by
  rw [extract_toNat]; omega

theorem func_toNat (w : Word) : (extract w 0 4).toNat = w.toNat % 16 := by
  rw [extract_toNat]; omega

theorem imm13_toNat (w : Word) : (extract w 0 13).toNat = w.toNat % 8192 := by
  rw [extract_toNat]; omega

/-- The case table of R91, row by row. -/
theorem decodeTag_eq_tagOfNumbers (w : Word) : decodeTag w = tagOfNumbers (w.toNat / 8192) (w.toNat % 16) := by
  rw [← opcode_toNat, ← func_toNat]
  rcases opcode_cases (extract w 13 3) with op | op | op | op | op | op | op | op
  · rcases func_cases (extract w 0 4) with
      fn | fn | fn | fn | fn | fn | fn | fn | fn | fn | fn | fn | fn | fn | fn | fn <;>
      simp [decodeTag, tagOfNumbers, op, fn]
  all_goals simp [decodeTag, tagOfNumbers, op]

/-- A bundle that says what an instruction says has its tag. -/
theorem BundleOf.tag_eq {pc : Word} {d : Decoded} {i : Instr} (bundle : BundleOf pc d i) : d.tag = tagOf i := by
  cases i <;> exact bundle.1

/-! ## The halt flag -/

/-- The target of a jump is the pc when all 16 bits agree, the three above the target being 0 (R92, R94). -/
theorem zext16_eq_iff (v : Imm13) (pc : Word) : zext16 v = pc ↔ v.toNat = pc.toNat := by
  rw [← zext16_toNat, BitVec.toNat_inj]

/-- The halt flag in numbers (R92, R93). -/
theorem decodeBundle_halt_iff (w pc : Word) :
    (decodeBundle w pc).halt = true ↔ w.toNat / 8192 = 2 ∧ w.toNat % 8192 = pc.toNat := by
  have opcode : extract w 13 3 = 0b010#3 ↔ w.toNat / 8192 = 2 := by
    rw [← opcode_toNat, ← BitVec.toNat_inj]; rfl
  simp only [decodeBundle, Bool.and_eq_true, beq_iff_eq, opcode, zext16_eq_iff, imm13_toNat]

/-- A core is halted below 8192 alone: a target has 13 bits (R94). -/
theorem pc_lt_of_halted {s : State} (h : s.halted = true) : s.pc.toNat < 8192 := by
  obtain ⟨-, target⟩ := (decodeBundle_halt_iff s.fetch s.pc).mp h
  omega

/-- A core that fetches a j is halted when the pc is the target of the j (R92, R145). -/
theorem halted_iff_of_decode_j {s : State} {imm13 : Imm13} (fetched : decode s.fetch = .j imm13) :
    s.halted = true ↔ imm13.toNat = s.pc.toNat := by
  have bundle := bundleOf_decode s.fetch s.pc
  rw [fetched] at bundle
  obtain ⟨-, halt, -⟩ := bundle
  rw [State.halted, State.decoded, halt, beq_iff_eq, zext16_eq_iff]

end Sys2Proof.Machine

namespace Sys2Proof.Proofs

open Sys2Proof Sys2Proof.Machine Sys2Proof.Claims

/-- Settles O14: the fields are those that `extract` takes, and the two decoders agree on the tag. -/
theorem decodedBundleIsThatOfTheRule : Obligations.DecodedBundleIsThatOfTheRule := by
  intro w pc
  refine ⟨decodeTag_eq_tagOfNumbers w, ?_, ?_, ?_, ?_, ?_, decodeBundle_halt_iff w pc,
    (bundleOf_decode w pc).tag_eq.symm⟩
  all_goals exact (slice_eq_extract w _ _ (by decide)).symm

/-- Settles O45: the jump moves the pc to its target, which has the index of the old pc, so that the same Word is fetched,
now a j to its own pc. -/
theorem aliasedSelfJumpRunsThenHalts : Obligations.AliasedSelfJumpRunsThenHalts := by
  refine ⟨fun w pc op => ?_, fun s high halt => ?_, fun s imm13 _ fetched sameIndex => ?_⟩
  · rw [decodeBundle_halt_iff]
    exact and_iff_right op
  · exact absurd (pc_lt_of_halted ((specStep_eq_halt_iff s).mp halt)) (Nat.not_lt.mpr high)
  · have target := jumpTarget_toNat imm13
    have index : wrapIndex (jumpTarget imm13).toNat = wrapIndex s.pc.toNat := by
      rw [target, sameIndex]
      exact Nat.mod_mod ..
    have refetched : (s.setPc (jumpTarget imm13)).fetch = s.fetch := fetch_of_wrapIndex_eq rfl index
    have next : step s = jumpTo s (jumpTarget imm13) := by rw [step, fetched, exec_j]
    refine ⟨_, next, target, fun _ => rfl, fun _ => rfl, refetched, (specStep_eq_halt_iff _).mpr ?_⟩
    exact (halted_iff_of_decode_j (refetched ▸ fetched)).mpr target.symm

end Sys2Proof.Proofs
end

section
/-! PROOFS. What a step runs: the Word at the index of the pc (R90, R95), and so a Word put there from outside (log 10). -/

namespace Sys2Proof.Machine

/-- The fetch reads at the index of the pc (R90). -/
theorem fetch_eq_memRead_mod (s : State) : s.fetch = s.memRead (s.pc.toNat % 8192) :=
  (Memory.read_mod s.mem s.pc.toNat).symm

/-- The Word that `withFetchWord` stores is the one fetched. -/
theorem withFetchWord_fetch (s : State) (nbits w : Nat) :
    (s.withFetchWord nbits w).fetch = BitVec.ofNat 16 (w % 2 ^ nbits) := by
  rw [State.fetch, State.withFetchWord, memRead_memWrite, memWrite_pc, if_pos rfl]

end Sys2Proof.Machine

namespace Sys2Proof.Proofs

open Sys2Proof Sys2Proof.Machine

/-- Settles O46. -/
theorem stepRunsTheDecodedInstruction : Obligations.StepRunsTheDecodedInstruction := by
  rintro s i rfl
  rw [step, fetch_eq_memRead_mod]

/-- Settles O47: a Word of 16 bits is stored whole, in memory alone. -/
theorem withFetchWordRunsNext : Obligations.WithFetchWordRunsNext := by
  intro s w bound
  refine ⟨?_, fun _ => rfl, rfl⟩
  have whole : w % 2 ^ 16 = w := Nat.mod_eq_of_lt bound
  rw [step, withFetchWord_fetch, whole]

end Sys2Proof.Proofs
end

section
/-! PROOFS. Runs (R100, R104, R203): the states that steps reach, the fixed points, the run under fuel, and the loops that
never halt. -/

namespace Sys2Proof.Machine

/-! ## The states reached -/

/-- A step before a run. -/
theorem Reaches.head {s t u : State} (next : step s = .next t) (reach : Reaches t u) : Reaches s u := by
  induction reach with
  | refl => exact .tail .refl next
  | tail _ last ih => exact .tail ih last

/-- What holds of a state and is kept by every step holds of every state reached from it. -/
theorem Reaches.invariant {P : State → Prop} (keeps : ∀ t u, P t → step t = .next u → P u) {s t : State}
    (reach : Reaches s t) (start : P s) : P t := by
  induction reach with
  | refl => exact start
  | tail _ last ih => exact keeps _ _ ih last

/-- A state that a step answers itself for reaches no other. -/
theorem Reaches.eq_of_fixed {s t : State} (reach : Reaches s t) (fixed : step s = .next s) : t = s := by
  refine reach.invariant (P := (· = s)) ?_ rfl
  rintro _ u rfl next
  rw [fixed] at next
  exact (Host.Outcome.next.inj next).symm

/-! ## The run under fuel -/

/-- One unit of fuel: the run ends in a halted state, and goes on from the clock edge of any other. At a stall that is the
same state again (R100, R104). -/
theorem runToHalt_succ (n : Nat) (s : State) :
    runToHalt (n + 1) s = if s.halted then .halted s else runToHalt n (clockEdge false s) := by
  cases halted : s.halted
  · cases stalled : s.stalled
    · simp [runToHalt, specStep, halted, stalled]
    · simp [runToHalt, specStep, halted, stalled, clockEdge_of_stalled]
  · simp [runToHalt, specStep, halted]

theorem runToHalt_of_halted {s : State} (h : s.halted = true) (n : Nat) : runToHalt (n + 1) s = .halted s := by
  simp [runToHalt_succ, h]

theorem runToHalt_of_not_halted {s : State} (h : s.halted = false) (n : Nat) :
    runToHalt (n + 1) s = runToHalt n (clockEdge false s) := by
  simp [runToHalt_succ, h]

/-- More fuel does not change the end of a run (R223). -/
theorem runToHalt_mono {n m : Nat} {s t : State} (le : n ≤ m) (run : runToHalt n s = .halted t) :
    runToHalt m s = .halted t := by
  induction n generalizing m s with
  | zero => cases run
  | succ n ih =>
    obtain ⟨m, rfl⟩ := Nat.exists_eq_succ_of_ne_zero (Nat.ne_zero_of_lt le)
    cases halted : s.halted with
    | true => rwa [runToHalt_of_halted halted] at run ⊢
    | false =>
      rw [runToHalt_of_not_halted halted] at run ⊢
      exact ih (Nat.le_of_succ_le_succ le) run

/-- The end of a run is a halted state that steps reach. -/
theorem reaches_of_runToHalt {n : Nat} {s t : State} (run : runToHalt n s = .halted t) :
    Reaches s t ∧ t.halted = true := by
  induction n generalizing s with
  | zero => cases run
  | succ n ih =>
    cases halted : s.halted with
    | true =>
      rw [runToHalt_of_halted halted] at run
      cases run
      exact ⟨.refl, halted⟩
    | false =>
      rw [runToHalt_of_not_halted halted] at run
      obtain ⟨reach, final⟩ := ih run
      exact ⟨.head (step_eq_clockEdge s) reach, final⟩

/-- Some fuel suffices for the run from `s`. -/
def EndsUnderFuel (s : State) : Prop := ∃ n t, runToHalt n s = .halted t

theorem endsUnderFuel_of_halted {s : State} (h : s.halted = true) : EndsUnderFuel s :=
  ⟨1, s, runToHalt_of_halted h 0⟩

/-- If fuel suffices after a step, one unit more suffices before it. -/
theorem endsUnderFuel_of_step {s t : State} (next : step s = .next t) (ends : EndsUnderFuel t) : EndsUnderFuel s := by
  cases halted : s.halted with
  | true => exact endsUnderFuel_of_halted halted
  | false =>
    rw [step_eq_clockEdge] at next
    cases next
    obtain ⟨n, u, run⟩ := ends
    exact ⟨n + 1, u, by rw [runToHalt_of_not_halted halted, run]⟩

theorem endsUnderFuel_of_reaches {s t : State} (reach : Reaches s t) (ends : EndsUnderFuel t) : EndsUnderFuel s := by
  induction reach with
  | refl => exact ends
  | tail _ last ih => exact ih (endsUnderFuel_of_step last ends)

theorem terminates_iff_endsUnderFuel (s : State) : Terminates s ↔ EndsUnderFuel s := by
  refine ⟨fun ⟨t, reach, final⟩ => ?_, fun ⟨n, t, run⟩ => ⟨t, reaches_of_runToHalt run⟩⟩
  exact endsUnderFuel_of_reaches reach (endsUnderFuel_of_halted final)

/-! ## Loops that never halt -/

/-- The core fetches an instruction, other than j, that leads to its own pc: a jal, a jr, or a taken jeq with offset -1 (R93,
R149). -/
inductive SelfLoop (s : State) : Prop where
  | jal {imm13 : Imm13} (fetched : decode s.fetch = .jal imm13) (target : imm13.toNat = s.pc.toNat)
  | jr {rA : RegIdx} (fetched : decode s.fetch = .jr rA) (target : s.readReg rA = s.pc)
  | jeq {rA rB : RegIdx} {imm7 : Imm7} (fetched : decode s.fetch = .jeq rA rB imm7) (offset : Claims.sx7 imm7 = -1)
      (taken : s.readReg rA = s.readReg rB)

/-- Neither output is up: the halt flag is for a j and the tag RESERVED for a reserved func (R93, R146). -/
theorem SelfLoop.not_halted_not_stalled {s : State} (loop : SelfLoop s) : s.halted = false ∧ s.stalled = false := by
  have bundle := bundleOf_decode s.fetch s.pc
  cases loop with
  | jal fetched | jr fetched | jeq fetched =>
    rw [fetched] at bundle
    obtain ⟨tag, halt, -⟩ := bundle
    exact ⟨halt, by simp [State.stalled, State.decoded, tag]⟩

/-- A step of the loop comes back to the same pc. The jal changes register 7, which it does not read; jr and jeq change
nothing. -/
theorem SelfLoop.keeps {s t : State} (loop : SelfLoop s) (next : step s = .next t) : SelfLoop t := by
  rw [step] at next
  cases loop with
  | @jal imm13 fetched target =>
    rw [fetched] at next
    cases next
    have pc : jumpTarget imm13 = s.pc := (zext16_eq_iff imm13 s.pc).mpr target
    rw [pc]
    exact .jal fetched target
  | @jr rA fetched target =>
    have back : exec (.jr rA) s = .next s := by rw [exec, execJr, target]; rfl
    rw [fetched, back] at next
    cases next
    exact .jr fetched target
  | @jeq rA rB imm7 fetched offset taken =>
    have pc : branchTarget s imm7 = s.pc := by
      apply BitVec.eq_of_toNat_eq
      have exactTarget := branchTarget_toNat s imm7
      rw [sext7_eq_sx7, offset] at exactTarget
      omega
    have back : exec (.jeq rA rB imm7) s = .next s := by
      rw [exec, execJeq, if_pos ((sameWord_iff _ _).mpr taken), pc]
      rfl
    rw [fetched, back] at next
    cases next
    exact .jeq fetched offset taken

theorem SelfLoop.diverges {s : State} (loop : SelfLoop s) : Diverges s :=
  fun _ reach => (reach.invariant (fun _ _ => SelfLoop.keeps) loop).not_halted_not_stalled

end Sys2Proof.Machine

namespace Sys2Proof.Proofs

open Sys2Proof Sys2Proof.Machine

/-- Settles O50: the step of a halted or stalled core answers the state itself (as logs 1 and 2 carry it). -/
theorem haltAndStallAreFixedPoints : Obligations.HaltAndStallAreFixedPoints := by
  refine fun s t reach => ⟨fun halt => ?_, fun stall => ?_⟩
  · obtain rfl := reach.eq_of_fixed (step_of_halted ((specStep_eq_halt_iff s).mp halt))
    exact ⟨rfl, halt⟩
  · obtain ⟨-, stalled⟩ := (specStep_eq_stall_iff s).mp stall
    obtain rfl := reach.eq_of_fixed (step_of_stalled stalled)
    exact ⟨rfl, stall⟩

/-- Settles O52: by induction on the fuel, and for the fuel that a terminating run needs on its steps. -/
theorem runUnderFuelFindsTheFinalState : Obligations.RunUnderFuelFindsTheFinalState := by
  refine ⟨fun n m s t le run => runToHalt_mono le run, terminates_iff_endsUnderFuel, fun n s t run => ?_⟩
  obtain ⟨reach, final⟩ := reaches_of_runToHalt run
  exact ⟨reach, (specStep_eq_halt_iff t).mpr final⟩

/-- Settles O53: each of the three keeps the pc, the fetched Word and its own condition, and so loops. -/
theorem selfLoopsOtherThanJNeverHalt : Obligations.SelfLoopsOtherThanJNeverHalt := by
  rintro s (⟨imm13, fetched, target⟩ | ⟨rA, fetched, target⟩ | ⟨rA, rB, imm7, fetched, offset, taken⟩)
  · exact (SelfLoop.jal fetched target).diverges
  · exact (SelfLoop.jr fetched target).diverges
  · exact (SelfLoop.jeq fetched offset taken).diverges

end Sys2Proof.Proofs
end

section
/-! PROOFS. The register-register ALU instructions (R110 to R115): the Words that decode to each, and what it computes. -/

namespace Sys2Proof

/-! ## The Words of an RRR row -/

/-- A func at its position is the pattern of its row (R82). -/
theorem place_func (func : BitVec 4) : place func 0 = BitVec.ofNat 16 func.toNat := by
  rw [place, BitVec.shiftLeft_zero, BitVec.ofNat_toNat]

/-- A Word of the row of `func` decodes to the instruction that the encoder writes with that func, its operands the fields at
their positions: the Word is the encoding of that instruction (R64, R80, R82). -/
theorem decode_of_matches_RRR {w : Word} {func : BitVec 4} {instr : RegIdx → RegIdx → RegIdx → Instr}
    (encodes : ∀ rA rB rD, encode (instr rA rB rD) = formatRRR rA rB rD func)
    (row : Claims.Matches w 0xE00F func.toNat) :
    decode w = instr (Claims.slice w 10 3) (Claims.slice w 7 3) (Claims.slice w 4 3) := by
  obtain ⟨op, fn⟩ := (matches_func w func).mp (row.trans (place_func func).symm)
  have encoded : encode (instr (extract w 10 3) (extract w 7 3) (extract w 4 3)) = w := by
    rw [encodes, formatRRR_extract op fn]
  rw [slice_eq_extract w 10 3 (by decide), slice_eq_extract w 7 3 (by decide), slice_eq_extract w 4 3 (by decide)]
  rw [← decode_encode (instr _ _ _), encoded]

end Sys2Proof

namespace Sys2Proof.Machine

open Sys2Proof.Claims

/-! ## The results -/

/-- An instruction whose meaning is a write-back completes, with that register as its whole effect besides the advance of the
pc (R97 to R99). -/
theorem computes_of_exec_eq_writeBack {i : Instr} {s : State} {d : RegIdx} {v : Word} (h : exec i s = writeBack s d v) :
    ∃ t, exec i s = .next t ∧ Computes s t d v := by
  obtain ⟨regs, -, mem⟩ := writeBack_spec (s := s) (d := d) (v := v) rfl
  exact ⟨_, h, regs, pcPlusOne_toNat s, fun a => congrArg (Memory.read · a) mem⟩

/-- The sum modulo 2^16 (R111). -/
theorem exec_add (rA rB rD : RegIdx) (s : State) :
    exec (.add rA rB rD) s =
      writeBack s rD (BitVec.ofNat 16 (((s.readReg rA).toNat + (s.readReg rB).toNat) % 65536)) := by
  have sum (a b : Word) : a + b = BitVec.ofNat 16 ((a.toNat + b.toNat) % 65536) :=
    BitVec.eq_of_toNat_eq (by simp)
  rw [← sum]
  rfl

/-- The difference modulo 2^16, taken in the integers (R112). -/
theorem exec_sub (rA rB rD : RegIdx) (s : State) :
    exec (.sub rA rB rD) s =
      writeBack s rD (BitVec.ofInt 16 (((s.readReg rA).toNat - (s.readReg rB).toNat) % 65536)) := by
  have difference (a b : Word) : a - b = BitVec.ofInt 16 (((a.toNat : Int) - b.toNat) % 65536) :=
    BitVec.eq_of_toNat_eq (by rw [BitVec.toNat_sub, BitVec.toNat_ofInt]; omega)
  rw [← difference]
  rfl

/-- The bitwise or (R113). -/
theorem exec_or (rA rB rD : RegIdx) (s : State) :
    exec (.or rA rB rD) s = writeBack s rD (s.readReg rA ||| s.readReg rB) := rfl

/-- The bitwise and (R114). -/
theorem exec_and (rA rB rD : RegIdx) (s : State) :
    exec (.and rA rB rD) s = writeBack s rD (s.readReg rA &&& s.readReg rB) := rfl

/-- The Word of an unsigned comparison (R115). -/
theorem exec_slt (rA rB rD : RegIdx) (s : State) :
    exec (.slt rA rB rD) s =
      writeBack s rD (if (s.readReg rA).toNat < (s.readReg rB).toNat then 1#16 else 0#16) := by
  simp only [exec, execSlt, truthWord, lessUnsigned_iff]

end Sys2Proof.Machine

namespace Sys2Proof.Proofs

open Sys2Proof Sys2Proof.Machine Sys2Proof.Claims

/-- Settles O21: the row of func 0, and the sum written back. -/
theorem addWritesTheSum : Obligations.AddWritesTheSum :=
  ⟨fun _ row => decode_of_matches_RRR (func := 0#4) (fun _ _ _ => rfl) row,
    fun rA rB rD s => computes_of_exec_eq_writeBack (exec_add rA rB rD s)⟩

/-- Settles O22: the row of func 1, and the difference written back. -/
theorem subWritesTheDifference : Obligations.SubWritesTheDifference :=
  ⟨fun _ row => decode_of_matches_RRR (func := 1#4) (fun _ _ _ => rfl) row,
    fun rA rB rD s => computes_of_exec_eq_writeBack (exec_sub rA rB rD s)⟩

/-- Settles O23: the row of func 2, and the Word written back known by its bits. -/
theorem orWritesTheBitwiseOr : Obligations.OrWritesTheBitwiseOr := by
  refine ⟨fun _ row => decode_of_matches_RRR (func := 2#4) (fun _ _ _ => rfl) row, fun rA rB rD s => ?_⟩
  obtain ⟨t, next, computes⟩ := computes_of_exec_eq_writeBack (exec_or rA rB rD s)
  exact ⟨t, _, next, computes, fun _ _ => BitVec.getLsbD_or⟩

/-- Settles O24: the row of func 3, and the Word written back known by its bits. -/
theorem andWritesTheBitwiseAnd : Obligations.AndWritesTheBitwiseAnd := by
  refine ⟨fun _ row => decode_of_matches_RRR (func := 3#4) (fun _ _ _ => rfl) row, fun rA rB rD s => ?_⟩
  obtain ⟨t, next, computes⟩ := computes_of_exec_eq_writeBack (exec_and rA rB rD s)
  exact ⟨t, _, next, computes, fun _ _ => BitVec.getLsbD_and⟩

/-- Settles O25: the row of func 4, and the comparison's Word written back. -/
theorem sltComparesUnsigned : Obligations.SltComparesUnsigned :=
  ⟨fun _ row => decode_of_matches_RRR (func := 4#4) (fun _ _ _ => rfl) row,
    fun rA rB rD s => computes_of_exec_eq_writeBack (exec_slt rA rB rD s)⟩

end Sys2Proof.Proofs
end

section
/-! PROOFS. The register-immediate ALU instructions (R120 to R123): the Words that decode to each, and what it computes. -/

namespace Sys2Proof

/-! ## The Words of an RRI row -/

/-- An opcode at its position is the pattern of its row (R82). -/
theorem place_opcode (opcode : BitVec 3) : place opcode 13 = BitVec.ofNat 16 (opcode.toNat * 2 ^ 13) := by
  revert opcode
  decide

/-- A Word of the row of `opcode` decodes to the instruction that the encoder writes in format RRI with that opcode, its
operands the fields at their positions: the Word is the encoding of that instruction (R65, R80, R82). -/
theorem decode_of_matches_RRI {w : Word} {opcode : BitVec 3} {instr : RegIdx → RegIdx → Imm7 → Instr}
    (encodes : ∀ rA rB imm7, encode (instr rA rB imm7) = formatRRI opcode rA rB imm7)
    (row : Claims.Matches w 0xE000 (opcode.toNat * 2 ^ 13)) :
    decode w = instr (Claims.slice w 10 3) (Claims.slice w 7 3) (Claims.slice w 0 7) := by
  have op : extract w 13 3 = opcode := (matches_opcode w opcode).mp (row.trans (place_opcode opcode).symm)
  have encoded : encode (instr (extract w 10 3) (extract w 7 3) (extract w 0 7)) = w := by
    rw [encodes, formatRRI_extract op]
  rw [slice_eq_extract w 10 3 (by decide), slice_eq_extract w 7 3 (by decide), slice_eq_extract w 0 7 (by decide)]
  rw [← decode_encode (instr _ _ _), encoded]

end Sys2Proof

namespace Sys2Proof.Machine

open Sys2Proof.Claims

/-! ## The results -/

/-- The sum with the immediate modulo 2^16 (R121): the sum that lw and sw take as `ea16` (R130). -/
theorem exec_addi (rA rB : RegIdx) (imm7 : Imm7) (s : State) :
    exec (.addi rA rB imm7) s =
      writeBack s rB (BitVec.ofInt 16 (((s.readReg rA).toNat + sx7 imm7) % 65536)) := by
  rw [← sext7_eq_sx7, ← effectiveAddress_toNat, BitVec.ofInt_natCast, BitVec.ofNat_toNat, BitVec.setWidth_eq]
  rfl

/-- The Word of a signed comparison with the immediate (R122). -/
theorem exec_slti (rA rB : RegIdx) (imm7 : Imm7) (s : State) :
    exec (.slti rA rB imm7) s =
      writeBack s rB (if signedValue (s.readReg rA) < sx7 imm7 then 1#16 else 0#16) := by
  have reading : signed16 (s.readReg rA) = signedValue (s.readReg rA) := rfl
  simp only [exec, execSlti, truthWord, lessSigned_iff, sext7_eq_sx7, reading]

end Sys2Proof.Machine

namespace Sys2Proof.Proofs

open Sys2Proof Sys2Proof.Machine Sys2Proof.Claims

/-- Settles O26: the row of opcode 1, and the sum written back. -/
theorem addiWritesTheSumWithTheImmediate : Obligations.AddiWritesTheSumWithTheImmediate :=
  ⟨fun _ row => decode_of_matches_RRI (opcode := 1#3) (fun _ _ _ => rfl) row,
    fun rA rB imm7 s => computes_of_exec_eq_writeBack (exec_addi rA rB imm7 s)⟩

/-- Settles O27: the row of opcode 7, and the comparison's Word written back. -/
theorem sltiComparesSigned : Obligations.SltiComparesSigned :=
  ⟨fun _ row => decode_of_matches_RRI (opcode := 7#3) (fun _ _ _ => rfl) row,
    fun rA rB imm7 s => computes_of_exec_eq_writeBack (exec_slti rA rB imm7 s)⟩

end Sys2Proof.Proofs
end

section
/-! PROOFS. The load and the store (R130 to R132): the Words that decode to each, and what it does to registers, pc and memory. -/

namespace Sys2Proof.Machine

open Sys2Proof.Claims

/-- The data index in the statements' sign extension: the exact sum modulo 8192 (R130). -/
theorem dataIndex_eq_sx7 (s : State) (rA : RegIdx) (imm7 : Imm7) :
    (dataIndex s rA imm7 : Int) = ((s.readReg rA).toNat + sx7 imm7) % 8192 := by
  rw [dataIndex_eq, sext7_eq_sx7]

/-- A lw writes the Word at the exact sum modulo 8192 back (R131). -/
theorem exec_lw_sx7 (rA rB : RegIdx) (imm7 : Imm7) (s : State) :
    exec (.lw rA rB imm7) s =
      writeBack s rB (s.memRead (((s.readReg rA).toNat + sx7 imm7) % 8192).toNat) := by
  rw [← dataIndex_eq_sx7, Int.toNat_natCast, exec_lw]

/-- A sw completes, with the default next pc (R97, R132). -/
theorem exec_sw_advances (rA rB : RegIdx) (imm7 : Imm7) (s : State) :
    ∃ t, exec (.sw rA rB imm7) s = .next t ∧ PcPlusOne s t :=
  ⟨_, rfl, pcPlusOne_toNat s⟩

end Sys2Proof.Machine

namespace Sys2Proof.Proofs

open Sys2Proof Sys2Proof.Machine Sys2Proof.Claims

/-- Settles O28: the row of opcode 4, and the Word at the data index written back. -/
theorem lwLoadsTheWord : Obligations.LwLoadsTheWord :=
  ⟨fun _ row => decode_of_matches_RRI (opcode := 4#3) (fun _ _ _ => rfl) row,
    fun rA rB imm7 s => computes_of_exec_eq_writeBack (exec_lw_sx7 rA rB imm7 s)⟩

/-- Settles O29: the row of opcode 5, the data index as the exact sum modulo 8192, and the store's effect and frame. -/
theorem swStoresTheWord : Obligations.SwStoresTheWord := by
  refine ⟨fun _ row => decode_of_matches_RRI (opcode := 5#3) (fun _ _ _ => rfl) row,
    fun rA rB imm7 s => ⟨dataIndex_eq_sx7 s rA imm7, ?_⟩⟩
  obtain ⟨t, next, pc⟩ := exec_sw_advances rA rB imm7 s
  obtain ⟨regs, stored⟩ := exec_sw_spec next
  exact ⟨t, next, fun r => congrArg (RegFile.read · r) regs, pc, stored⟩

end Sys2Proof.Proofs
end

section
/-! PROOFS. The control transfers (R140 to R144, R148): the Words that decode to each, and its target, link and frame. -/

namespace Sys2Proof

/-! ## The Words of a J row -/

/-- A Word of the row of `opcode` decodes to the instruction that the encoder writes in format J with that opcode, its target the
low 13 bits: the Word is the encoding of that instruction (R66, R80, R82). -/
theorem decode_of_matches_J {w : Word} {opcode : BitVec 3} {instr : Imm13 → Instr}
    (encodes : ∀ imm13, encode (instr imm13) = formatJ opcode imm13)
    (row : Claims.Matches w 0xE000 (opcode.toNat * 2 ^ 13)) : decode w = instr (Claims.slice w 0 13) := by
  have op : extract w 13 3 = opcode := (matches_opcode w opcode).mp (row.trans (place_opcode opcode).symm)
  have encoded : encode (instr (extract w 0 13)) = w := by rw [encodes, formatJ_extract op]
  rw [slice_eq_extract w 0 13 (by decide), ← decode_encode (instr _), encoded]

end Sys2Proof

namespace Sys2Proof.Machine

open Sys2Proof.Claims

/-! ## The jumps -/

/-- An instruction whose meaning is a jump completes, with the pc as its whole effect (R140). -/
theorem jumps_of_exec_eq_jumpTo {i : Instr} {s : State} {p : Word} (h : exec i s = jumpTo s p) :
    ∃ t, exec i s = .next t ∧ t.pc = p ∧ SameRegs s t ∧ SameMem s t :=
  ⟨_, h, rfl, fun _ => rfl, fun _ => rfl⟩

/-- The whole register goes to the pc (R141). -/
theorem exec_jr (rA : RegIdx) (s : State) : exec (.jr rA) s = jumpTo s (s.readReg rA) := rfl

/-- The two targets of jeq (R142). -/
theorem exec_jeq (rA rB : RegIdx) (imm7 : Imm7) (s : State) :
    exec (.jeq rA rB imm7) s =
      jumpTo s (if s.readReg rA = s.readReg rB then branchTarget s imm7 else s.pcPlusOne) := by
  simp only [exec, execJeq, sameWord_iff]

/-! ## The jump with a link -/

/-- The link is written and then the jump made; both values are of the state before (R144). -/
theorem exec_jal (imm13 : Imm13) (s : State) :
    exec (.jal imm13) s = .next ((s.writeReg 7#3 s.pcPlusOne).setPc (jumpTarget imm13)) := rfl

/-- The link as the number of the rule (R144). -/
theorem pcPlusOne_eq_ofNat (s : State) : s.pcPlusOne = BitVec.ofNat 16 ((s.pc.toNat + 1) % 65536) := by
  rw [← pcPlusOne_toNat, BitVec.ofNat_toNat, BitVec.setWidth_eq]

/-- A completed jal: the link in register 7 and no other register, the target in the pc, and memory kept (R144). -/
theorem exec_jal_spec {imm13 : Imm13} {s t : State} (h : exec (.jal imm13) s = .next t) :
    OnlyRegister s t 7#3 (BitVec.ofNat 16 ((s.pc.toNat + 1) % 65536)) ∧ t.pc.toNat = imm13.toNat ∧ SameMem s t := by
  rw [exec_jal] at h
  cases h
  refine ⟨fun r => ?_, jumpTarget_toNat imm13, fun _ => rfl⟩
  rw [setPc_readReg, readReg_writeReg, pcPlusOne_eq_ofNat]

/-- After a jal register 7 holds the address of the next instruction (R144, R148). -/
theorem readReg_link_of_exec_jal {imm13 : Imm13} {s t : State} (h : exec (.jal imm13) s = .next t) :
    (t.readReg 7#3).toNat = (s.pc.toNat + 1) % 65536 := by
  obtain ⟨link, -⟩ := exec_jal_spec h
  rw [link, if_pos (by decide), ← pcPlusOne_eq_ofNat, pcPlusOne_toNat]

end Sys2Proof.Machine

namespace Sys2Proof.Proofs

open Sys2Proof Sys2Proof.Machine Sys2Proof.Claims

/-- Settles O30: bits 9:4 do not select jr, and its meaning is a jump to the register. -/
theorem jrJumpsToTheRegister : Obligations.JrJumpsToTheRegister := by
  obtain ⟨decodes, -⟩ := onlyJrIgnoresBits
  exact ⟨decodes, fun rA s => jumps_of_exec_eq_jumpTo (exec_jr rA s)⟩

/-- Settles O31: the row of opcode 6, and a jump whose two targets are those of the table of R26. -/
theorem jeqBranchesOnEquality : Obligations.JeqBranchesOnEquality := by
  refine ⟨fun _ row => decode_of_matches_RRI (opcode := 6#3) (fun _ _ _ => rfl) row, fun rA rB imm7 s => ?_⟩
  obtain ⟨t, next, -, regs, mem⟩ := jumps_of_exec_eq_jumpTo (exec_jeq rA rB imm7 s)
  exact ⟨t, next, exec_newPc next, regs, mem⟩

/-- Settles O32: the row of opcode 2, and a jump to the target. The jump is the meaning of every j, of one to its own pc too
(`exec_j`, as log 1 carries the halt), so that the premise on the pc is not used. -/
theorem jJumpsToTheTarget : Obligations.JJumpsToTheTarget := by
  refine ⟨fun _ row => decode_of_matches_J (opcode := 2#3) (fun _ => rfl) row, fun imm13 s _ => ?_⟩
  obtain ⟨t, next, pc, regs, mem⟩ := jumps_of_exec_eq_jumpTo (exec_j imm13 s)
  exact ⟨t, next, pc ▸ jumpTarget_toNat imm13, regs, mem⟩

/-- Settles O34: the row of opcode 3, and the link written with the jump. -/
theorem jalLinksAndJumps : Obligations.JalLinksAndJumps :=
  ⟨fun _ row => decode_of_matches_J (opcode := 3#3) (fun _ => rfl) row,
    fun imm13 s => ⟨_, exec_jal imm13 s, exec_jal_spec (exec_jal imm13 s)⟩⟩

/-- Settles O44: the jr jumps to register 7, which holds the link. -/
theorem jrSevenReturnsFromJal : Obligations.JrSevenReturnsFromJal := by
  intro imm13 s s1 s2 jal kept
  obtain ⟨u, next, pc, -⟩ := jumps_of_exec_eq_jumpTo (exec_jr 7#3 s2)
  exact ⟨u, next, by rw [pc, kept, readReg_link_of_exec_jal jal]⟩

end Sys2Proof.Proofs
end

section
/-! PROOFS. The fetched Words that end or stop a run: the halt convention (R145) and the reserved-func Words (R146). -/

namespace Sys2Proof.Machine

open Sys2Proof.Claims

/-- The Word of the halt convention at a pc below 8192 (R145). -/
theorem eq_haltWord {w pc : Word} (op : w.toNat / 8192 = 2) (target : w.toNat % 8192 = pc.toNat) :
    w = 0x4000#16 + pc := by
  apply BitVec.eq_of_toNat_eq
  rw [BitVec.toNat_add, BitVec.toNat_ofNat]
  omega

/-- A reserved func has the tag RESERVED (R72, R91). -/
theorem tagOfNumbers_of_reserved : ∀ func ∈ reservedFuncs, tagOfNumbers 0 func = .reserved := by decide

/-- A core that fetches a Word of opcode 0 with a reserved func is stalled (R146). -/
theorem stalled_of_reserved {s : State} (op : s.fetch.toNat / 8192 = 0) (func : s.fetch.toNat % 16 ∈ reservedFuncs) :
    s.stalled = true := by
  have tag : s.decoded.tag = tagOfNumbers (s.fetch.toNat / 8192) (s.fetch.toNat % 16) :=
    decodeTag_eq_tagOfNumbers s.fetch
  rw [stalled_iff, tag, op, tagOfNumbers_of_reserved _ func]

end Sys2Proof.Machine

namespace Sys2Proof.Proofs

open Sys2Proof Sys2Proof.Machine Sys2Proof.Claims

/-- Settles O33: the halt flag in numbers, which fix the Word. -/
theorem selfJumpHalts : Obligations.SelfJumpHalts := by
  refine ⟨fun s op target => ?_, fun s halt => ?_⟩
  · have halted : s.halted = true := (decodeBundle_halt_iff s.fetch s.pc).mpr ⟨op, target⟩
    exact ⟨(specStep_eq_halt_iff s).mpr halted, clockEdge_of_halted halted⟩
  · have halted := (specStep_eq_halt_iff s).mp halt
    obtain ⟨op, target⟩ := (decodeBundle_halt_iff s.fetch s.pc).mp halted
    exact ⟨eq_haltWord op target, pc_lt_of_halted halted⟩

/-- Settles O35: the tag is RESERVED, and so the core is stalled and not halted. -/
theorem reservedFuncStalls : Obligations.ReservedFuncStalls := by
  intro s op func
  have stalled := stalled_of_reserved op func
  have notHalted : s.halted = false :=
    Bool.eq_false_iff.mpr fun halted => not_halted_and_stalled s ⟨halted, stalled⟩
  exact ⟨(specStep_eq_stall_iff s).mpr ⟨notHalted, stalled⟩, clockEdge_of_stalled stalled⟩

end Sys2Proof.Proofs
end

section
/-! PROOFS. How a pc below 8192 can leave the memory (R140; 92_eei_decisions.md, "Recommended premise"). -/

namespace Sys2Proof.Machine

open Sys2Proof.Claims

/-- The rows of R26 that lead from a pc below 8192 to one of 8192 or more. A j or jal has a target of 13 bits and a reserved Word
holds the pc; what is left is jr, a taken jeq, and the sequential pc. -/
theorem newPc_leaves_memory {i : Instr} {s : State} (low : s.pc.toNat < 8192) (high : 8192 ≤ newPc s i) :
    (∃ rA, i = .jr rA ∧ 8192 ≤ (s.readReg rA).toNat) ∨
    (∃ rA rB imm7, i = .jeq rA rB imm7 ∧ s.readReg rA = s.readReg rB ∧
      ((s.pc.toNat : Int) + 1 + sx7 imm7 < 0 ∨ 8192 ≤ (s.pc.toNat : Int) + 1 + sx7 imm7)) ∨
    s.pc.toNat = 8191 := by
  cases i with
  | jr rA => exact .inl ⟨rA, rfl, Int.ofNat_le.mp high⟩
  | jeq rA rB imm7 =>
    by_cases taken : s.readReg rA = s.readReg rB
    · rw [newPc, if_pos taken] at high
      exact .inr (.inl ⟨rA, rB, imm7, rfl, taken, by omega⟩)
    · rw [newPc, if_neg taken] at high
      exact .inr (.inr (by omega))
  | j imm13 =>
    have target := imm13.isLt
    rw [newPc] at high
    split at high <;> omega
  | jal imm13 =>
    have target := imm13.isLt
    rw [newPc] at high
    omega
  | add rA rB rD | sub rA rB rD | or rA rB rD | and rA rB rD | slt rA rB rD
  | addi rA rB imm7 | slti rA rB imm7 | lw rA rB imm7 | sw rA rB imm7 =>
    rw [newPc] at high
    exact .inr (.inr (by omega))
  | reserved5 x | reserved6 x | reserved7 x | reserved9 x | reserved10 x | reserved11 x | reserved12 x
  | reserved13 x | reserved14 x | reserved15 x =>
    rw [newPc] at high
    omega

end Sys2Proof.Machine

namespace Sys2Proof.Proofs

open Sys2Proof Sys2Proof.Machine

/-- Settles O40: the new pc is that of the table of R26. -/
theorem pcLeavesMemoryOnlyAsListed : Obligations.PcLeavesMemoryOnlyAsListed := by
  intro s t low next high
  have fromTable : (t.pc.toNat : Int) = Claims.newPc s (decode s.fetch) := exec_newPc next
  exact newPc_leaves_memory low (fromTable ▸ Int.ofNat_le.mpr high)

end Sys2Proof.Proofs
end

section
/-! PROOFS. The core at a clock edge: the reset input (45_datapath_interfaces.md R174) and, with reset low, the hardware view
against the instruction rules (R160 to R177). -/

namespace Sys2Proof.Machine

/-- A clock edge with `rst` 1 is the reset alone: no instruction is executed (R174). -/
@[simp] theorem clockEdge_reset (s : State) : clockEdge true s = s.assertReset := rfl

/-- Reset leaves every Word of memory (R174, R214). -/
@[simp] theorem assertReset_memRead (s : State) (a : Nat) : s.assertReset.memRead a = s.memRead a := rfl

/-- Every register reads 0 after reset (R35, R174). -/
@[simp] theorem assertReset_readReg (s : State) (r : RegIdx) : s.assertReset.readReg r = 0#16 := RegFile.zero_read r

end Sys2Proof.Machine

namespace Sys2Proof.Proofs

open Sys2Proof Sys2Proof.Machine

/-- Settles O48: the decoded bundle is that of the decoded instruction, and for each instruction the row that the bundle selects
gives the state of its meaning. -/
theorem hardwareViewEqualsTheStep : Obligations.HardwareViewEqualsTheStep := step_eq_clockEdge

/-- Settles O5: the edge is the reset, which takes the cleared register file and pc and keeps the memory. -/
theorem resetInputClearsRegistersAndKeepsMemory : Obligations.ResetInputClearsRegistersAndKeepsMemory := by
  intro s
  rw [clockEdge_reset]
  exact ⟨assertReset_readReg s, assertReset_pc s, assertReset_memRead s⟩

end Sys2Proof.Proofs
end

section
/-! PROOFS. No exception is left (60_exceptions.md R190, R203): every instruction answers a next state, and every run is of exactly
one of the three classes. -/

namespace Sys2Proof.Machine

/-- Every instruction ends in a write-back, a store, a jump, a jump with the link, a halting step or a stalling step, and each of
these answers a next state (R190, as logs 1, 2 and 9 carry it). -/
theorem exec_completes (i : Instr) (s : State) : ∃ t, exec i s = .next t := by
  cases i with
  | add rA rB rD | sub rA rB rD | or rA rB rD | and rA rB rD | slt rA rB rD => exact ⟨(s.writeReg rD _).advance, rfl⟩
  | addi rA rB imm7 | slti rA rB imm7 | lw rA rB imm7 => exact ⟨(s.writeReg rB _).advance, rfl⟩
  | sw rA rB imm7 => exact ⟨(s.memWrite _ (s.readReg rB)).advance, rfl⟩
  | jr rA => exact ⟨_, exec_jr rA s⟩
  | jeq rA rB imm7 => exact ⟨_, exec_jeq rA rB imm7 s⟩
  | j imm13 => exact ⟨_, exec_j imm13 s⟩
  | jal imm13 => exact ⟨_, exec_jal imm13 s⟩
  | reserved5 x | reserved6 x | reserved7 x | reserved9 x | reserved10 x | reserved11 x | reserved12 x
  | reserved13 x | reserved14 x | reserved15 x => exact ⟨s, rfl⟩

/-- A step has one next state, so every run from `s` that is not empty goes through it. -/
theorem Reaches.eq_or_of_step {s t u : State} (reach : Reaches s u) (next : step s = .next t) : u = s ∨ Reaches t u := by
  induction reach with
  | refl => exact .inl rfl
  | tail _ last ih =>
    obtain rfl | through := ih
    · rw [next] at last
      cases last
      exact .inr .refl
    · exact .inr (.tail through last)

/-- A fixed point that the run reaches is still ahead of every other state that the run reaches. -/
theorem Reaches.ahead_of_fixed {s t u : State} (reachU : Reaches s u) (fixed : step u = .next u) (reachT : Reaches s t) :
    Reaches t u := by
  refine reachT.invariant (P := fun v => Reaches v u) (fun v w ahead next => ?_) reachU
  obtain rfl | through := ahead.eq_or_of_step next
  · rw [fixed] at next
    cases next
    exact ahead
  · exact through

/-- A run reaches at most one fixed point. -/
theorem Reaches.fixed_unique {s t u : State} (reachT : Reaches s t) (fixedT : step t = .next t)
    (reachU : Reaches s u) (fixedU : step u = .next u) : u = t :=
  (reachU.ahead_of_fixed fixedU reachT).eq_of_fixed fixedT

/-- A halted and a stalled state on one run would be one fixed point, and no state is both (R93, R104, R146). -/
theorem not_terminates_and_stallsForEver (s : State) : ¬ (Terminates s ∧ StallsForEver s) := by
  rintro ⟨⟨t, reachT, halted⟩, u, reachU, stalled⟩
  obtain rfl := reachT.fixed_unique (step_of_halted halted) reachU (step_of_stalled stalled)
  exact not_halted_and_stalled u ⟨halted, stalled⟩

/-- A run diverges when it reaches neither a halted nor a stalled state (R203). -/
theorem diverges_iff (s : State) : Diverges s ↔ ¬ Terminates s ∧ ¬ StallsForEver s := by
  constructor
  · refine fun diverges => ⟨fun ⟨t, reach, halted⟩ => ?_, fun ⟨t, reach, stalled⟩ => ?_⟩
    · obtain ⟨notHalted, -⟩ := diverges t reach
      exact Bool.eq_false_iff.mp notHalted halted
    · obtain ⟨-, notStalled⟩ := diverges t reach
      exact Bool.eq_false_iff.mp notStalled stalled
  · rintro ⟨noHalt, noStall⟩ t reach
    exact ⟨Bool.eq_false_iff.mpr fun halted => noHalt ⟨t, reach, halted⟩,
      Bool.eq_false_iff.mpr fun stalled => noStall ⟨t, reach, stalled⟩⟩

end Sys2Proof.Machine

namespace Sys2Proof.Proofs

open Sys2Proof Sys2Proof.Machine

/-- Settles O51: divergence is that neither of the other two holds, and those two exclude each other since a run reaches at most
one fixed point. -/
theorem everyRunIsOfExactlyOneClass : Obligations.EveryRunIsOfExactlyOneClass := by
  intro s
  refine ⟨?_, not_terminates_and_stallsForEver s, fun ⟨terminates, diverges⟩ => ?_, fun ⟨stalls, diverges⟩ => ?_⟩
  · by_cases terminates : Terminates s
    · exact .inl terminates
    · by_cases stalls : StallsForEver s
      · exact .inr (.inl stalls)
      · exact .inr (.inr ((diverges_iff s).mpr ⟨terminates, stalls⟩))
  · obtain ⟨noHalt, -⟩ := (diverges_iff s).mp diverges
    exact noHalt terminates
  · obtain ⟨-, noStall⟩ := (diverges_iff s).mp diverges
    exact noStall stalls

/-- Settles O37: each of the ways an instruction ends answers a next state. -/
theorem everyInstructionCompletesInEveryState : Obligations.EveryInstructionCompletesInEveryState := exec_completes

end Sys2Proof.Proofs
end

section
/-! PROOFS. What the start state reads as (70_reset_and_hazards.md R210), and the state that a halting j and a reserved-func
instruction answer (logs 1 and 2). -/

namespace Sys2Proof.Machine

open Sys2Proof.Claims

/-! ## The start state -/

/-- Every register reads 0 at the start of a run (R35, R210). -/
@[simp] theorem start_readReg (memInit : Nat → Word) (r : RegIdx) : (State.start memInit).readReg r = 0#16 :=
  RegFile.zero_read r

@[simp] theorem start_pc (memInit : Nat → Word) : (State.start memInit).pc = 0#16 := rfl

/-- The loaded memory reads at each address as `MEM_INIT` at the index that the address names (R6, R41). -/
theorem Memory.read_ofInit (memInit : Nat → Word) (a : Nat) :
    (Memory.ofInit memInit).read a = memInit (wrapIndex a) := by
  have below : wrapIndex a < Config.memWords := Nat.mod_lt a (by decide)
  rw [Memory.read, Memory.ofInit, Memory.cellAt_cellsFrom, if_pos (by omega)]

/-- The same, of the state in which a run starts (R210). -/
theorem start_memRead (memInit : Nat → Word) (a : Nat) : (State.start memInit).memRead a = memInit (wrapIndex a) :=
  Memory.read_ofInit memInit a

/-! ## The instructions that answer the same state -/

/-- A j is the halt convention when its target has the number of the pc (R92, R145). -/
theorem targetsItself_iff_toNat (s : State) (imm13 : Imm13) :
    targetsItself s imm13 = true ↔ imm13.toNat = s.pc.toNat := by
  rw [targetsItself_iff, zext16_eq_iff]

/-- The meaning of a j to its own pc is the halting step (R145). -/
theorem exec_j_eq_haltStep {imm13 : Imm13} {s : State} (self : imm13.toNat = s.pc.toNat) :
    exec (.j imm13) s = haltStep s := by
  rw [exec, execJ, if_pos ((targetsItself_iff_toNat s imm13).mpr self)]

/-- The meaning of every instruction with the tag RESERVED is the stalling step, whatever the ignored bits (R72, R146). -/
theorem exec_eq_stallStep {i : Instr} (reserved : tagOf i = .reserved) (s : State) : exec i s = stallStep s := by
  cases i with
  | reserved5 x | reserved6 x | reserved7 x | reserved9 x | reserved10 x | reserved11 x | reserved12 x
  | reserved13 x | reserved14 x | reserved15 x => rfl
  | _ => cases reserved

end Sys2Proof.Machine

namespace Sys2Proof.Proofs

open Sys2Proof Sys2Proof.Machine

/-- Settles O1: below 8192 an address is its own index, and the loader's cells hold `MEM_INIT` at every index (the induction is
that of `Memory.cellAt_cellsFrom`). -/
theorem resetStateHoldsZerosAndMemInit : Obligations.ResetStateHoldsZerosAndMemInit := by
  intro memInit
  refine ⟨start_readReg memInit, start_pc memInit, fun a below => ?_⟩
  have index : wrapIndex a = a := Nat.mod_eq_of_lt below
  rw [start_memRead, index]

/-- Settles O36: the j is the halting step, the reserved-func instructions are the stalling step, and the model carries both by the
state before (logs 1 and 2). -/
theorem haltAndReservedAnswerTheSameState : Obligations.HaltAndReservedAnswerTheSameState := by
  refine ⟨fun imm13 s self => exec_j_eq_haltStep self, fun x s => ?_⟩
  have same {i : Instr} (reserved : Claims.tagOf i = .reserved) : exec i s = .next s := exec_eq_stallStep reserved s
  exact ⟨same rfl, same rfl, same rfl, same rfl, same rfl, same rfl, same rfl, same rfl, same rfl, same rfl⟩

end Sys2Proof.Proofs
end
